-- ==== Sys2Proof/Word.lean ====
section
/-! DEFINITION. The word types of checksum-16-engine, and the shape of one host bus access.

R6: every field, register and byte is unsigned; bit 0 is the least significant bit. -/

namespace Sys2Proof

/-- One byte of a frame, of the payload or of host memory. -/
abbrev Byte := BitVec 8

/-- The width of the checksum and of RESULT (R5, R31). -/
abbrev Half := BitVec 16

/-- The width of a register and of a host address (R5: register width 32, ADDR_W 32). -/
abbrev Word := BitVec 32

/-- The direction of an access: `dir` of `host_admits(addr, dir)` (R66) and of a register access (R99). -/
inductive Dir where
  | read
  | write
deriving DecidableEq, Repr

/-- One access the host makes on the bus towards the block, before anything is known about it (R62):
its direction, its width in BITS, its bus address, and the value a write carries.
A read carries no value: its `data` is not looked at. -/
structure BusAccess where
  dir   : Dir
  width : Nat
  addr  : Word
  data  : Word
deriving DecidableEq, Repr

end Sys2Proof
end

