-- ==== Sys2Proof/Config.lean ====
section
/-! DEFINITION. The parameters of R5: the constants the spec fixes, and the OPEN ones as plain data.

The OPEN parameters (`REG_BASE`, `host_admits`, `HOST_BUS_ENDIAN`) are the platform's, and no step changes them.
They are carried as a value of type `Platform`, so that a statement over every state is a statement over every
platform (D4: "the model quantifies over it"); log entry 1. -/

namespace Sys2Proof

/-- R5 `PAYLOAD_CAP`: the payload buffer's capacity in bytes. -/
abbrev Config.payloadCap : Nat := 255

/-- R5 `SYNC`: the hardwired sync constant. -/
abbrev Config.sync : Half := 0x55AA#16

/-- R5 `HDR_LEN`: sync, command and length. -/
abbrev Config.hdrLen : Nat := 4

/-- R5 `TRAILER_LEN`: the checksum. -/
abbrev Config.trailerLen : Nat := 2

/-- R5 `MIN_FRAME`: a frame with an empty payload. -/
abbrev Config.minFrame : Nat := 6

/-- R5 `MAX_FRAME`: a frame with a full payload. -/
abbrev Config.maxFrame : Nat := 261

/-- R5: the reflected CRC polynomial. -/
abbrev Config.crcPoly : Half := 0xA001#16

/-- R5: the CRC register's initial value. -/
abbrev Config.crcInit : Half := 0xFFFF#16

/-- R5: the CRC's final XOR, which is none. -/
abbrev Config.crcFinalXor : Half := 0x0000#16

/-- R5, R61 `HOST_BUS_ENDIAN`: how a 32-bit register value maps onto bytes of the host bus.
OPEN, and no admitted access depends on it. -/
inductive Endian where
  | little
  | big
deriving DecidableEq, Repr

/-- A range of host addresses, both ends included, that the platform admits to the engine for reading, for
writing, for both or for neither. -/
structure Region where
  first : Word
  last  : Word
  read  : Bool
  write : Bool
deriving DecidableEq, Repr

/-- The OPEN parameters of R5 as plain data.

* `basePage` is `REG_BASE` divided by 0x200: `REG_BASE` is 32 bits wide and aligned to 0x200 (D4), so its upper
  23 bits are all of it.
* `regions` is `host_admits` (R66) as a list of ranges; an address no range admits is not admitted.
  Every predicate on the 2^32 addresses is such a list.
* `endian` is `HOST_BUS_ENDIAN`. -/
structure Platform where
  basePage : BitVec 23
  regions  : List Region
  endian   : Endian
deriving DecidableEq, Repr

end Sys2Proof
end

