-- ==== Sys2Proof/Syntax.lean ====
section
/-! DEFINITION. The operations of the block: one constructor for each row of spec/opcode_table.json (R90).

The seven `cmd…` constructors are the commands (format `CW`), each a 32-bit word the host writes to CTRL.
The others are the register accesses (format `BUS`), decoded by their offset and direction (R99). -/

namespace Sys2Proof

/-- Every operation of R90, with the operands its row gives it. -/
inductive Instr where
  /-- `NEW` (R121). -/
  | cmdNew
  /-- `FROM c, n` (R122): `c` is `CW.A`, `n` is `CW.B`. -/
  | cmdFrom (c : Byte) (n : Half)
  /-- `WRITE cap` (R141): `cap` is `CW.B`. -/
  | cmdWrite (cap : Half)
  /-- `VALIDATE` (R180). -/
  | cmdValidate
  /-- `PARSE m` (R201): `m` is `CW.B`. -/
  | cmdParse (m : Half)
  /-- `CALC` (R164). -/
  | cmdCalc
  /-- `ILLEGAL` (R97): the command word itself, which no other `CW` row matches. -/
  | cmdIllegal (w : Word)
  /-- `RD.CTRL` (R228). -/
  | rdCtrl
  /-- `WR.CTRL` (R95): the command word written. -/
  | wrCtrl (w : Word)
  /-- `RD.PTR` (R220). -/
  | rdPtr
  /-- `WR.PTR` (R227). -/
  | wrPtr (v : Word)
  /-- `RD.STATUS` (R220). -/
  | rdStatus
  /-- `WR.STATUS` (R225). -/
  | wrStatus (v : Word)
  /-- `RD.RESULT` (R220). -/
  | rdResult
  /-- `WR.RESULT` (R225). -/
  | wrResult (v : Word)
  /-- `RD.PKT_SYNC` (R220). -/
  | rdPktSync
  /-- `WR.PKT_SYNC` (R225). -/
  | wrPktSync (v : Word)
  /-- `RD.PKT_CMD` (R220). -/
  | rdPktCmd
  /-- `WR.PKT_CMD` (R222). -/
  | wrPktCmd (v : Word)
  /-- `RD.PKT_LEN` (R220). -/
  | rdPktLen
  /-- `WR.PKT_LEN` (R225). -/
  | wrPktLen (v : Word)
  /-- `RD.PKT_CSUM` (R220). -/
  | rdPktCsum
  /-- `WR.PKT_CSUM` (R223). -/
  | wrPktCsum (v : Word)
  /-- `RD.PAYLOAD` (R220, R26): word index `k` is `offset[7:2]`, 0..63. -/
  | rdPayload (k : BitVec 6)
  /-- `WR.PAYLOAD` (R224): word index `k`, 32-bit value `v`. -/
  | wrPayload (k : BitVec 6) (v : Word)
  /-- `RD.RESERVED` (R226): the offset, aligned and in 0x020..0x0FC. -/
  | rdReserved (off : BitVec 9)
  /-- `WR.RESERVED` (R226). -/
  | wrReserved (off : BitVec 9) (v : Word)
deriving DecidableEq, Repr

/-- The operation is a command: a row of format `CW` (R90 (1)). -/
def Instr.isCommand : Instr → Bool
  | .cmdNew | .cmdFrom .. | .cmdWrite .. | .cmdValidate | .cmdParse .. | .cmdCalc | .cmdIllegal .. => true
  | .rdCtrl | .rdPtr | .rdStatus | .rdResult | .rdPktSync | .rdPktCmd | .rdPktLen | .rdPktCsum
  | .rdPayload .. | .rdReserved .. => false
  | .wrCtrl .. | .wrPtr .. | .wrStatus .. | .wrResult .. | .wrPktSync .. | .wrPktCmd .. | .wrPktLen ..
  | .wrPktCsum .. | .wrPayload .. | .wrReserved .. => false

/-- The operation is a host read of a register: an `RD` row (R220). -/
def Instr.isRegRead : Instr → Bool
  | .rdCtrl | .rdPtr | .rdStatus | .rdResult | .rdPktSync | .rdPktCmd | .rdPktLen | .rdPktCsum
  | .rdPayload .. | .rdReserved .. => true
  | .cmdNew | .cmdFrom .. | .cmdWrite .. | .cmdValidate | .cmdParse .. | .cmdCalc | .cmdIllegal .. => false
  | .wrCtrl .. | .wrPtr .. | .wrStatus .. | .wrResult .. | .wrPktSync .. | .wrPktCmd .. | .wrPktLen ..
  | .wrPktCsum .. | .wrPayload .. | .wrReserved .. => false

end Sys2Proof
end

