-- ==== Sys2Proof/WellFormed.lean ====
section
/-! DEFINITION. Which terms of `Instr` stand for an operation of the block: two rows have an operand whose type
admits more than the row does. -/

namespace Sys2Proof

/-- R97, "Encoding": the words that are ILLEGAL, said directly and not through the decoder.
OP is 0x00 or 0x07..0xFF; or OP is 0x01, 0x04 or 0x06 with A or B nonzero; or OP is 0x03 or 0x05 with A nonzero. -/
def isIllegalWord (w : Word) : Bool :=
  let op := w.extractLsb' 0 8
  let a := w.extractLsb' 8 8
  let b := w.extractLsb' 16 16
  (op == 0x00#8 || decide (0x07#8 ≤ op))
    || ((op == 0x01#8 || op == 0x04#8 || op == 0x06#8) && (a != 0#8 || b != 0#16))
    || ((op == 0x03#8 || op == 0x05#8) && a != 0#8)

/-- R21, R226: an aligned offset in 0x020..0x0FC. -/
def isReservedOffset (off : BitVec 9) : Bool :=
  decide (0x020#9 ≤ off) && decide (off ≤ 0x0FC#9) && off.extractLsb' 0 2 == 0#2

/-- The operands are ones the row of the opcode table admits. -/
def Instr.wf : Instr → Bool
  | .cmdIllegal w => isIllegalWord w
  | .rdReserved off | .wrReserved off _ => isReservedOffset off
  | .cmdNew | .cmdFrom .. | .cmdWrite .. | .cmdValidate | .cmdParse .. | .cmdCalc => true
  | .rdCtrl | .rdPtr | .rdStatus | .rdResult | .rdPktSync | .rdPktCmd | .rdPktLen | .rdPktCsum
  | .rdPayload .. => true
  | .wrCtrl .. | .wrPtr .. | .wrStatus .. | .wrResult .. | .wrPktSync .. | .wrPktCmd .. | .wrPktLen ..
  | .wrPktCsum .. | .wrPayload .. => true

/-- A well-formed operation. -/
abbrev WellFormed (i : Instr) : Prop := i.wf = true

end Sys2Proof
end

