-- ==== Sys2Proof/Decode.lean ====
section
/-! DEFINITION. The decoders of R96 (command words) and R99 (register accesses), R62's admission of a bus access,
and the encoder of R93, R99 and R100. -/

namespace Sys2Proof

/-- Why a bus access is not an operation of the block: R62's conditions, each by name. -/
inductive Reject where
  /-- R62 (a): the access is not 32 bits wide. -/
  | notWordWide
  /-- R62 (b): the offset is not a multiple of 4. -/
  | misaligned
  /-- R62 (b): the offset is 0x200 or more. -/
  | outsideWindow
deriving DecidableEq, Repr

/-- An operation as the opcode table encodes it: a 32-bit command word (format `CW`), or a register access
(format `BUS`) by its direction, its 9-bit offset from `REG_BASE` and the value written (0 for a read). -/
inductive Encoded where
  | cw  (w : Word)
  | bus (dir : Dir) (off : BitVec 9) (data : Word)
deriving DecidableEq, Repr

/-! ### Fields of the command word (R91, R92) -/

/-- `CW.OP = w[7:0]`. -/
def cwOp (w : Word) : Byte := w.extractLsb' 0 8

/-- `CW.A = w[15:8]`. -/
def cwA (w : Word) : Byte := w.extractLsb' 8 8

/-- `CW.B = w[31:16]`. -/
def cwB (w : Word) : Half := w.extractLsb' 16 16

/-! ### Decoding -/

/-- R96: the decision tree over command words, with a result for each branch.
`decodeCommand` takes the commands as results; issuing a command (R95) takes their meanings. -/
def decodeCwWith {α : Type} (cmdNew : α) (cmdFrom : Byte → Half → α) (cmdWrite : Half → α) (cmdValidate : α)
    (cmdParse : Half → α) (cmdCalc : α) (cmdIllegal : Word → α) (w : Word) : α :=
  if cwOp w = 0x01 ∧ cwA w = 0 ∧ cwB w = 0 then cmdNew
  else if cwOp w = 0x02 then cmdFrom (cwA w) (cwB w)
  else if cwOp w = 0x03 ∧ cwA w = 0 then cmdWrite (cwB w)
  else if cwOp w = 0x04 ∧ cwA w = 0 ∧ cwB w = 0 then cmdValidate
  else if cwOp w = 0x05 ∧ cwA w = 0 then cmdParse (cwB w)
  else if cwOp w = 0x06 ∧ cwA w = 0 ∧ cwB w = 0 then cmdCalc
  else cmdIllegal w

/-- R96: the decoder of command words, total on every 32-bit word. -/
def decodeCommand (w : Word) : Instr :=
  decodeCwWith .cmdNew .cmdFrom .cmdWrite .cmdValidate .cmdParse .cmdCalc .cmdIllegal w

/-- The read row or the write row of one offset. -/
def rowOf (dir : Dir) (rd wr : Instr) : Instr :=
  match dir with
  | .read => rd
  | .write => wr

/-- R99: the decoder of register accesses by offset and direction. -/
def decodeBus (dir : Dir) (off : BitVec 9) (v : Word) : Except Reject Instr :=
  if off.extractLsb' 0 2 ≠ 0#2 then .error .misaligned
  else if off = 0x000#9 then .ok (rowOf dir .rdCtrl (.wrCtrl v))
  else if off = 0x004#9 then .ok (rowOf dir .rdPtr (.wrPtr v))
  else if off = 0x008#9 then .ok (rowOf dir .rdStatus (.wrStatus v))
  else if off = 0x00C#9 then .ok (rowOf dir .rdResult (.wrResult v))
  else if off = 0x010#9 then .ok (rowOf dir .rdPktSync (.wrPktSync v))
  else if off = 0x014#9 then .ok (rowOf dir .rdPktCmd (.wrPktCmd v))
  else if off = 0x018#9 then .ok (rowOf dir .rdPktLen (.wrPktLen v))
  else if off = 0x01C#9 then .ok (rowOf dir .rdPktCsum (.wrPktCsum v))
  else if off < 0x100#9 then .ok (rowOf dir (.rdReserved off) (.wrReserved off v))
  else .ok (rowOf dir (.rdPayload (off.extractLsb' 2 6)) (.wrPayload (off.extractLsb' 2 6) v))

/-- The operation an encoding stands for, or the reason it stands for none. -/
def decode : Encoded → Except Reject Instr
  | .cw w => .ok (decodeCommand w)
  | .bus dir off v => decodeBus dir off v

/-- `REG_BASE` (R5): aligned to 0x200 by its form. -/
def Platform.regBase (p : Platform) : Word := p.basePage ++ 0#9

/-- R62: the offset of an admitted access, or the reason it is not admitted.
`off = addr - REG_BASE`; the access is 32 bits wide, `off mod 4 = 0` and `off < 0x200`. -/
def admitAccess (p : Platform) (a : BusAccess) : Except Reject (BitVec 9) :=
  let off := a.addr - p.regBase
  if a.width ≠ 32 then .error .notWordWide
  else if off.extractLsb' 0 2 ≠ 0#2 then .error .misaligned
  else if 0x200#32 ≤ off then .error .outsideWindow
  else .ok (off.setWidth 9)

/-- R62 and R99: the operation a bus access performs, or the reason it has no step. -/
def decodeAccess (p : Platform) (a : BusAccess) : Except Reject Instr :=
  match admitAccess p a with
  | .error e => .error e
  | .ok off => decodeBus a.dir off a.data

/-! ### Encoding -/

/-- R100: a command word from its three fields. -/
def cwWord (op a : Byte) (b : Half) : Word :=
  (b.setWidth 32 <<< 16) ||| (a.setWidth 32 <<< 8) ||| op.setWidth 32

/-- R93, R99, R100: the encoding of an operation. -/
def encode : Instr → Encoded
  | .cmdNew => .cw (cwWord 0x01 0 0)
  | .cmdFrom c n => .cw (cwWord 0x02 c n)
  | .cmdWrite cap => .cw (cwWord 0x03 0 cap)
  | .cmdValidate => .cw (cwWord 0x04 0 0)
  | .cmdParse m => .cw (cwWord 0x05 0 m)
  | .cmdCalc => .cw (cwWord 0x06 0 0)
  | .cmdIllegal w => .cw w
  | .rdCtrl => .bus .read 0x000 0
  | .wrCtrl w => .bus .write 0x000 w
  | .rdPtr => .bus .read 0x004 0
  | .wrPtr v => .bus .write 0x004 v
  | .rdStatus => .bus .read 0x008 0
  | .wrStatus v => .bus .write 0x008 v
  | .rdResult => .bus .read 0x00C 0
  | .wrResult v => .bus .write 0x00C v
  | .rdPktSync => .bus .read 0x010 0
  | .wrPktSync v => .bus .write 0x010 v
  | .rdPktCmd => .bus .read 0x014 0
  | .wrPktCmd v => .bus .write 0x014 v
  | .rdPktLen => .bus .read 0x018 0
  | .wrPktLen v => .bus .write 0x018 v
  | .rdPktCsum => .bus .read 0x01C 0
  | .wrPktCsum v => .bus .write 0x01C v
  | .rdPayload k => .bus .read (0x100#9 + k.setWidth 9 <<< 2) 0
  | .wrPayload k v => .bus .write (0x100#9 + k.setWidth 9 <<< 2) v
  | .rdReserved off => .bus .read off 0
  | .wrReserved off v => .bus .write off v

/-- R95, R99: the bus access by which the host performs an encoded operation.
A command word is written to CTRL, at offset 0x000. -/
def Encoded.access (p : Platform) : Encoded → BusAccess
  | .cw w => ⟨.write, 32, p.regBase, w⟩
  | .bus dir off v => ⟨dir, 32, p.regBase + off.setWidth 32, v⟩

/-! ### The opcode table's own numbering -/

/-- The encoding whose bits, as spec/opcode_table.json numbers them, are `w` in a row of `nbits` bits (log entry 2).
A `BUS` row has 9 bits, the offset; its direction is in no bit of the table and, as a bit above `nbits`, is the one
of a read.
A `CW` row has the 32 bits of the command word, of which the table gives some rows only the low 8 or 16; those end
in 10, 11 or 01, so no such word is an aligned offset. -/
def tableWord (nbits w : Nat) : Option Encoded :=
  if nbits < 32 ∧ w % 4 = 0 ∧ w < 0x200 then some (.bus .read (BitVec.ofNat 9 w) 0)
  else if w < 2 ^ 32 then some (.cw (BitVec.ofNat 32 w))
  else none

/-- The operation the decoder reads from an instruction whose bits are `w`. -/
def decodeTableWord (nbits w : Nat) : Option Instr :=
  match tableWord nbits w with
  | none => none
  | some e =>
    match decode e with
    | .ok i => some i
    | .error _ => none

end Sys2Proof
end

