-- ==== Sys2Proof/Machine/State.lean ====
section
/-! DEFINITION. The machine's state as plain data, its reset value, and the ways a step can stop. -/

namespace Sys2Proof.Machine

/-- Host memory (R35): bytes by address, in the one canonical form `Memory.wf` of Machine/Ops.lean. -/
abbrev Memory := List Host.Cell

/-- The packet register PKT (R20): the document's Packet, less `sync`, which is the constant 0x55AA (R23). -/
structure Packet where
  /-- PKT_CMD (R24). -/
  cmd     : Byte
  /-- PKT_LEN (R25). -/
  len     : Byte
  /-- The fixed-capacity buffer of 255 bytes (R26). -/
  payload : Vector Byte 255
  /-- PKT_CSUM (R27). -/
  csum    : Half
deriving DecidableEq, Repr

/-- The fields of STATUS (R30). -/
structure Status where
  err  : BitVec 4
  fdet : BitVec 2
deriving DecidableEq, Repr

/-- One thing the host does: the inputs of the machine (log entry 3). They land between commands only (R276). -/
inductive HostEvent where
  /-- An access towards the block's registers (R62, R99). -/
  | access (a : BusAccess)
  /-- The host, or another agent, stores a byte in host memory (R67). -/
  | store (addr : Word) (b : Byte)
  /-- The host loads a byte from host memory (R70 (3), R279). -/
  | load (addr : Word)
  /-- The block is reset (R270, R271). -/
  | reset
deriving DecidableEq, Repr

/-- Everything the spec gives the machine: the block's four registers of R20, host memory (R35), and the model's own
fields `platform` (the OPEN parameters of R5), `inputs` (what the host does next, in order) and `hostData` (the value
the host's latest completed read returned; `none` before the first). -/
structure State where
  pkt      : Packet
  ptr      : Word
  status   : Status
  result   : Half
  mem      : Memory
  platform : Platform
  inputs   : List HostEvent
  hostData : Option Word
deriving DecidableEq, Repr

/-! ### The updates of a state, each of one thing -/

/-- The packet register written. -/
def State.withPkt (s : State) (p : Packet) : State := { s with pkt := p }

/-- PTR written. -/
def State.withPtr (s : State) (v : Word) : State := { s with ptr := v }

/-- STATUS and RESULT written: no command writes one without the other (R241). -/
def State.withOutcome (s : State) (st : Status) (r : Half) : State := { s with status := st, result := r }

/-- Host memory replaced. -/
def State.withMem (s : State) (m : Memory) : State := { s with mem := m }

/-- A value returned to the host. -/
def State.withHostData (s : State) (v : Word) : State := { s with hostData := some v }

/-- What the host does next replaced. -/
def State.withInputs (s : State) (es : List HostEvent) : State := { s with inputs := es }

/-- The platform replaced; no step does this. -/
def State.withPlatform (s : State) (p : Platform) : State := { s with platform := p }

/-- The ways a step can stop: R12 (b), an agent is stuck. The block has no fault state of its own (R245). -/
inductive Fault where
  /-- R62: the host's access is not admitted, and the host is stuck.
  Raised by `step`, before any operation; safe: nothing has changed. -/
  | hostStuck (why : Reject)
  /-- R66: the engine's next byte access is at an address the platform does not admit, and the engine is stuck there.
  Raised by FROM, WRITE and PARSE. `left` is the state it is stuck in: the bytes WRITE has already written stay
  written, and nothing else has changed. Safe: the machine stops where the spec says it has no step. -/
  | engineStuck (addr : Word) (dir : Dir) (left : State)
deriving DecidableEq, Repr

/-- No operation of the block is left without a meaning. -/
inductive Refusal where
  /-- Raised by an arm of `exec` whose operation has no meaning yet; safe. No arm does. -/
  | notModelled (mnemonic : String)
deriving DecidableEq, Repr

/-- R270: the packet register after reset, which equals the result of NEW (R121). -/
def Packet.reset : Packet := ⟨0x00, 0x00, Vector.replicate 255 0x00, 0x0000⟩

/-- STATUS with ERR = 0 and FDET = 0. -/
def Status.ok : Status := ⟨0, 0⟩

/-- The platform of `State.reset`, and of no rule (log entry 1): `REG_BASE` is 0x40000000, the engine may read and
write every host address but the block's own 0x200 bytes, and the bus is little-endian. -/
def resetPlatform : Platform :=
  ⟨0x200000#23,
   [⟨0x00000000#32, 0x3FFFFFFF#32, true, true⟩, ⟨0x40000200#32, 0xFFFFFFFF#32, true, true⟩],
   .little⟩

/-- R270: the machine right after reset. Host memory lists nothing (log entry 4), no host access is pending and none
has been answered. -/
def State.reset : State where
  pkt := Packet.reset
  ptr := 0x00000000
  status := Status.ok
  result := 0x0000
  mem := []
  platform := resetPlatform
  inputs := []
  hostData := none

end Sys2Proof.Machine
end

