-- ==== Sys2Proof/Machine/Flags.lean ====
section
/-! DEFINITION. The codes of STATUS (R30, R242) and its 32-bit register value. -/

namespace Sys2Proof.Machine

/-- R242: the errors a command can record. -/
inductive Err where
  | payloadTooLarge
  | bufferTooSmall
  | checksumMismatch
  | framing
  | illegalCommand
deriving DecidableEq, Repr

/-- R242: `code(E)`, the value of STATUS.ERR; 0 is OK. -/
def Err.code : Err → BitVec 4
  | .payloadTooLarge => 1
  | .bufferTooSmall => 2
  | .checksumMismatch => 3
  | .framing => 4
  | .illegalCommand => 5

/-- R30: the detail of a FRAMING error, and `none` for every other error. -/
inductive Detail where
  | none
  | truncated
  | badSync
deriving DecidableEq, Repr

/-- R30: the value of STATUS.FDET. -/
def Detail.code : Detail → BitVec 2
  | .none => 0
  | .truncated => 1
  | .badSync => 2

/-- R30, R220: the register value of STATUS, `zext_32(FDET << 4 | ERR)`; bits [31:6] read 0. -/
def Status.word (st : Status) : Word := (st.fdet.setWidth 32 <<< 4) ||| st.err.setWidth 32

/-- R30: ERR is one of 0..5, FDET is one of 0..2, and FDET is nonzero only when ERR = 4. -/
def Status.legal (st : Status) : Bool :=
  decide (st.err ≤ 5#4) && decide (st.fdet ≤ 2#2) && (st.fdet == 0#2 || st.err == 4#4)

end Sys2Proof.Machine
end

