-- ==== Sys2Proof/Machine/Operands.lean ====
section
/-! DEFINITION. The operand forms: host addresses (R64), 16-bit values as bytes (R6, R7, R60), and the packet's
payload by byte, by frame region and by window word (R26). -/

namespace Sys2Proof.Machine

/-- R64: `ea(i) = (PTR + i) mod 2^32`, the only addressing mode. -/
def ea (ptr : Word) (i : Nat) : Word := ptr + BitVec.ofNat 32 i

/-- R6: `lo8(x) = x[7:0]`. -/
def lo8 (x : Half) : Byte := x.extractLsb' 0 8

/-- R6: `hi8(x) = x[15:8]`. -/
def hi8 (x : Half) : Byte := x.extractLsb' 8 8

/-- R7: `bytes_le16(x)`; R60: the wire order, low byte first. -/
def bytesLe16 (x : Half) : List Byte := [lo8 x, hi8 x]

/-- R201: `b1 << 8 | b0`, the 16-bit value whose low byte came first. -/
def joinLe16 (b0 b1 : Byte) : Half := (b1.setWidth 16 <<< 8) ||| b0.setWidth 16

/-- `PKT.payload[i]`; R26: index 255 does not exist and reads 0x00. -/
def Packet.byte (p : Packet) (i : Nat) : Byte := p.payload[i]?.getD 0x00

/-- R7: `PKT.payload[0..PKT.len]`, the bytes that are transmitted and checksummed. -/
def Packet.body (p : Packet) : List Byte := p.payload.toList.take p.len.toNat

/-- R120: a payload buffer filled from index 0, the remaining bytes 0x00. -/
def fillPayload (bs : List Byte) : Vector Byte 255 := Vector.ofFn fun i : Fin 255 => bs.getD i 0x00

/-- R26, R220: word `k` of the PAYLOAD window, byte `4k + j` at bits `[8j+7:8j]` (R61). -/
def Packet.window (p : Packet) (k : BitVec 6) : Word :=
  (p.byte (4 * k.toNat)).setWidth 32
    ||| ((p.byte (4 * k.toNat + 1)).setWidth 32 <<< 8)
    ||| ((p.byte (4 * k.toNat + 2)).setWidth 32 <<< 16)
    ||| ((p.byte (4 * k.toNat + 3)).setWidth 32 <<< 24)

/-- `PKT.payload[i] <- b`; a write to index 255, which does not exist, is ignored (R22). -/
def setPayload (v : Vector Byte 255) (i : Nat) (b : Byte) : Vector Byte 255 := v.setIfInBounds i b

/-- R224: the four byte writes of `WR PAYLOAD[k]`. -/
def Packet.setWindow (p : Packet) (k : BitVec 6) (v : Word) : Packet :=
  let v0 := setPayload p.payload (4 * k.toNat) (v.extractLsb' 0 8)
  let v1 := setPayload v0 (4 * k.toNat + 1) (v.extractLsb' 8 8)
  let v2 := setPayload v1 (4 * k.toNat + 2) (v.extractLsb' 16 8)
  { p with payload := setPayload v2 (4 * k.toNat + 3) (v.extractLsb' 24 8) }

end Sys2Proof.Machine
end

