-- ==== Sys2Proof/Machine/Ops.lean ====
section
/-! DEFINITION. The shared operations: one byte of host memory, the platform's admission (R66), the engine's reads and
writes (R9, R64, R65), and the two ways a command completes (R10).

The block has no traps (R240, R247): recording an error in STATUS, `raiseError`, stands where another hardware takes
an exception, and there is no return from one. -/

namespace Sys2Proof.Machine

/-- What a step or an operation answers. -/
abbrev Result := Host.Outcome State Fault Refusal

/-! ### Host memory -/

/-- What a byte of host memory reads as where nothing has been stored (log entry 4). -/
def Memory.unlisted : Byte := 0x00

/-- The byte at an address. -/
def Memory.get : Memory → Nat → Byte
  | [], _ => Memory.unlisted
  | (k, b) :: rest, a => if k = a then b else Memory.get rest a

/-- The memory with nothing listed at an address. -/
def Memory.clear (m : Memory) (a : Nat) : Memory := m.filter fun c => c.1 != a

/-- A cell put before the first cell of a higher address. -/
def Memory.insert : Memory → Nat → Byte → Memory
  | [], a, b => [(a, b)]
  | (k, c) :: rest, a, b => if k < a then (k, c) :: Memory.insert rest a b else (a, b) :: (k, c) :: rest

/-- Storing one byte, in the canonical form: storing what an unlisted address reads as takes the address off the
list. -/
def Memory.set (m : Memory) (a : Nat) (b : Byte) : Memory :=
  if b = Memory.unlisted then m.clear a else (m.clear a).insert a b

/-- The addresses rise strictly from `lo`, lie in the 2^32 of host memory, and no cell holds the unlisted value. -/
def Memory.wfFrom (lo : Nat) : Memory → Bool
  | [] => true
  | (k, b) :: rest =>
    decide (lo ≤ k) && decide (k < 2 ^ 32) && (b != Memory.unlisted) && Memory.wfFrom (k + 1) rest

/-- The canonical form of host memory: equal memories are equal lists. -/
def Memory.wf (m : Memory) : Bool := Memory.wfFrom 0 m

/-- The byte of host memory at a 32-bit address. -/
def hostByte (s : State) (a : Word) : Byte := s.mem.get a.toNat

/-- The state with one byte of host memory stored. -/
def storeByte (s : State) (a : Word) (b : Byte) : State := s.withMem (s.mem.set a.toNat b)

/-! ### The platform's admission and the engine's accesses -/

/-- A range admits an access at an address in a direction. -/
def regionAdmits (r : Region) (a : Word) (d : Dir) : Bool :=
  decide (r.first ≤ a) && decide (a ≤ r.last)
    && match d with
       | .read => r.read
       | .write => r.write

/-- R66: `host_admits(addr, dir)`. -/
def hostAdmits (p : Platform) (a : Word) (d : Dir) : Bool := p.regions.any fun r => regionAdmits r a d

/-- R9, R66: `MemRead(ea(i), 1)`, then the rest of the command with the byte read; or the engine is stuck there. -/
def withByte (s : State) (i : Nat) (k : Byte → Result) : Result :=
  if hostAdmits s.platform (ea s.ptr i) .read then k (hostByte s (ea s.ptr i))
  else .fault (.engineStuck (ea s.ptr i) .read s)

/-- R65: the reads of bytes `i .. i+n-1` of the region at PTR, in ascending order, then the rest of the command with
those bytes. -/
def withBytes (s : State) (i : Nat) : Nat → (List Byte → Result) → Result
  | 0, k => k []
  | n + 1, k => withByte s i fun b => withBytes s (i + 1) n fun bs => k (b :: bs)

/-- R9, R65, R66: the writes of bytes to the region at PTR from index `i` on, in ascending order, then the rest of the
command in the state they leave; or the engine is stuck at the first that is not admitted, with the bytes before it
written. -/
def writeBytes (s : State) (i : Nat) : List Byte → (State → Result) → Result
  | [], k => k s
  | b :: bs, k =>
    if hostAdmits s.platform (ea s.ptr i) .write then writeBytes (storeByte s (ea s.ptr i) b) (i + 1) bs k
    else .fault (.engineStuck (ea s.ptr i) .write s)

/-- The bytes `i .. i+n-1` of the region at PTR, as host memory holds them. -/
def regionBytes (s : State) (i : Nat) : Nat → List Byte
  | 0 => []
  | n + 1 => hostByte s (ea s.ptr i) :: regionBytes s (i + 1) n

/-! ### Completion -/

/-- R10: `done(r)`. -/
def done (r : Half) (s : State) : Result := .next (s.withOutcome Status.ok r)

/-- R10, R243: `raise E(fdet)`: records the error and ends the command, with no other write by it. -/
def raiseError (e : Err) (d : Detail) (s : State) : Result :=
  .next (s.withOutcome ⟨e.code, d.code⟩ 0x0000)

/-- R220: the value a register read returns to the host; the read changes nothing of the block. -/
def answerHost (v : Word) (s : State) : Result := .next (s.withHostData v)

/-- R70 (3), R279: the host loads a byte of host memory. -/
def loadByte (s : State) (a : Word) : Result := answerHost ((hostByte s a).setWidth 32) s

/-- R270, R271: the block's registers at their reset values; host memory is not touched. -/
def blockReset (s : State) : State :=
  ((s.withPkt Packet.reset).withPtr 0x00000000).withOutcome Status.ok 0x0000

end Sys2Proof.Machine
end

