-- ==== Sys2Proof/Machine/RegisterRead.lean ====
section
/-! DEFINITION. Host reads of the registers (R220, R226, R228): each returns a value and changes nothing of the block. -/

namespace Sys2Proof.Machine

/-- RD CTRL (R228): reads 0, and issues no command. -/
def execRdCtrl (s : State) : Result := answerHost 0x00000000 s

/-- RD PTR (R220). -/
def execRdPtr (s : State) : Result := answerHost s.ptr s

/-- RD STATUS (R220): `zext_32(FDET << 4 | ERR)`. -/
def execRdStatus (s : State) : Result := answerHost s.status.word s

/-- RD RESULT (R220). -/
def execRdResult (s : State) : Result := answerHost (s.result.setWidth 32) s

/-- RD PKT_SYNC (R220, R23): 0x000055AA at all times. -/
def execRdPktSync (s : State) : Result := answerHost (Config.sync.setWidth 32) s

/-- RD PKT_CMD (R220). -/
def execRdPktCmd (s : State) : Result := answerHost (s.pkt.cmd.setWidth 32) s

/-- RD PKT_LEN (R220). -/
def execRdPktLen (s : State) : Result := answerHost (s.pkt.len.setWidth 32) s

/-- RD PKT_CSUM (R220). -/
def execRdPktCsum (s : State) : Result := answerHost (s.pkt.csum.setWidth 32) s

/-- RD PAYLOAD[k] (R220, R26). -/
def execRdPayload (k : BitVec 6) (s : State) : Result := answerHost (s.pkt.window k) s

/-- RD at a reserved offset (R226): reads 0. -/
def execRdReserved (_off : BitVec 9) (s : State) : Result := answerHost 0x00000000 s

end Sys2Proof.Machine
end

