-- ==== Sys2Proof/Machine/Crc.lean ====
section
/-! DEFINITION. The checksum engine: CRC-16/MODBUS (R161, R162) over the checksum domain (R160), and CALC (R164).

The running register (R33) exists only inside these functions: it is not architectural state. -/

namespace Sys2Proof.Machine

/-- R162: one of the 8 shifts of a byte step. -/
def crcShift (r : Half) : Half :=
  if r.getLsbD 0 then (r >>> 1) ^^^ Config.crcPoly else r >>> 1

/-- R162: `crc_step(r, b)`. -/
def crcStep (r : Half) (b : Byte) : Half := Nat.repeat crcShift 8 (r ^^^ b.setWidth 16)

/-- R161: `crc16(s)`, with no final XOR. -/
def crc16 (s : List Byte) : Half := s.foldl crcStep Config.crcInit ^^^ Config.crcFinalXor

/-- R160: `domain(PKT)`, `sync` as 2 bytes little-endian, then command, length and the meaningful payload bytes. -/
def Packet.domain (p : Packet) : List Byte := bytesLe16 Config.sync ++ [p.cmd, p.len] ++ p.body

/-- R163: `checksum(PKT) = crc16(domain(PKT))`. -/
def Packet.checksum (p : Packet) : Half := crc16 p.domain

/-- CALC (R164): the checksum of the packet register, which is not written. -/
def execCmdCalc (s : State) : Result := done s.pkt.checksum s

end Sys2Proof.Machine
end

