-- ==== Sys2Proof/Machine/Construct.lean ====
section
/-! DEFINITION. Construction: NEW (R121) and FROM (R122). -/

namespace Sys2Proof.Machine

/-- NEW (R121): every field of the packet register zero; the checksum is not computed. -/
def execCmdNew (s : State) : Result :=
  done 0 (s.withPkt ⟨0x00, 0x00, fillPayload [], 0x0000⟩)

/-- R122: the packet FROM makes of a command byte, a count and the payload bytes read. -/
def construct (c : Byte) (n : Half) (p : List Byte) : Packet :=
  ⟨c, lo8 n, fillPayload p, crc16 (bytesLe16 Config.sync ++ [c, lo8 n] ++ p)⟩

/-- FROM (R122): PAYLOAD_TOO_LARGE before any memory access, else the `n` source bytes at PTR make the packet. -/
def execCmdFrom (c : Byte) (n : Half) (s : State) : Result :=
  if 255 < n.toNat then raiseError .payloadTooLarge .none s
  else withBytes s 0 n.toNat fun p => done 0 (s.withPkt (construct c n p))

end Sys2Proof.Machine
end

