-- ==== Sys2Proof/Machine/Illegal.lean ====
section
/-! DEFINITION. The illegal command (R97). -/

namespace Sys2Proof.Machine

/-- ILLEGAL (R97): `raise ILLEGAL_COMMAND(0)`, whatever the word. -/
def execCmdIllegal (_w : Word) (s : State) : Result := raiseError .illegalCommand .none s

end Sys2Proof.Machine
end

