-- ==== Sys2Proof/Machine/Parse.lean ====
section
/-! DEFINITION. Deserialization and sync-marker validation: PARSE (R201). -/

namespace Sys2Proof.Machine

/-- R201: the packet PARSE loads; the checksum is taken as received (R203). -/
def received (c len : Byte) (p : List Byte) (k0 k1 : Byte) : Packet :=
  ⟨c, len, fillPayload p, joinLe16 k0 k1⟩

/-- PARSE (R201), its checks in the order of the rule; the first that fails decides FDET. -/
def execCmdParse (m : Half) (s : State) : Result :=
  if m.toNat < 2 then raiseError .framing .truncated s
  else withByte s 0 fun b0 => withByte s 1 fun b1 =>
    if joinLe16 b0 b1 ≠ Config.sync then raiseError .framing .badSync s
    else if m.toNat < 4 then raiseError .framing .truncated s
    else withByte s 2 fun c => withByte s 3 fun len =>
      if m.toNat < len.toNat + 6 then raiseError .framing .truncated s
      else withBytes s 4 len.toNat fun p =>
        withByte s (4 + len.toNat) fun k0 => withByte s (5 + len.toNat) fun k1 =>
          done (len.setWidth 16 + 6) (s.withPkt (received c len p k0 k1))

end Sys2Proof.Machine
end

