-- ==== Sys2Proof/Machine/Serialize.lean ====
section
/-! DEFINITION. Serialization: the frame (R140) and WRITE (R141). -/

namespace Sys2Proof.Machine

/-- R140: `serialize(PKT)`, with the STORED checksum, low byte first. -/
def Packet.frame (p : Packet) : List Byte :=
  bytesLe16 Config.sync ++ [p.cmd, p.len] ++ p.body ++ bytesLe16 p.csum

/-- R141: `L = zext_16(PKT.len) + 6`, the number of bytes of the frame. -/
def Packet.frameLen (p : Packet) : Half := p.len.setWidth 16 + 6

/-- WRITE (R141): BUFFER_TOO_SMALL before any byte is written, else the frame at PTR. -/
def execCmdWrite (cap : Half) (s : State) : Result :=
  if cap < s.pkt.frameLen then raiseError .bufferTooSmall .none s
  else writeBytes s 0 s.pkt.frame fun t => done s.pkt.frameLen t

end Sys2Proof.Machine
end

