-- ==== Sys2Proof/Machine/Validate.lean ====
section
/-! DEFINITION. Validation: VALIDATE (R180). -/

namespace Sys2Proof.Machine

/-- VALIDATE (R180): compares the recomputed checksum with the stored one, on all 16 bits. -/
def execCmdValidate (s : State) : Result :=
  if s.pkt.checksum = s.pkt.csum then done 0 s else raiseError .checksumMismatch .none s

end Sys2Proof.Machine
end

