-- ==== Sys2Proof/Machine/RegisterWrite.lean ====
section
/-! DEFINITION. Host writes of the registers: the command issue through CTRL (R95), and R222 to R227. -/

namespace Sys2Proof.Machine

/-- A write the block ignores (R22, R225, R226). -/
def ignoreWrite (s : State) : Result := .next s

/-- WR CTRL (R95): decodes the word by R96 and performs the command to completion; CTRL stores nothing (R28). -/
def execWrCtrl (w : Word) (s : State) : Result :=
  decodeCwWith (execCmdNew s) (fun c n => execCmdFrom c n s) (fun cap => execCmdWrite cap s) (execCmdValidate s)
    (fun m => execCmdParse m s) (execCmdCalc s) (fun w => execCmdIllegal w s) w

/-- WR PTR (R227): all 32 bits. -/
def execWrPtr (v : Word) (s : State) : Result := .next (s.withPtr v)

/-- WR STATUS (R225): ignored. -/
def execWrStatus (_v : Word) (s : State) : Result := ignoreWrite s

/-- WR RESULT (R225): ignored. -/
def execWrResult (_v : Word) (s : State) : Result := ignoreWrite s

/-- WR PKT_SYNC (R225): ignored. -/
def execWrPktSync (_v : Word) (s : State) : Result := ignoreWrite s

/-- WR PKT_CMD (R222): `PKT.cmd <- v[7:0]`. -/
def execWrPktCmd (v : Word) (s : State) : Result :=
  .next (s.withPkt { s.pkt with cmd := v.extractLsb' 0 8 })

/-- WR PKT_LEN (R225): ignored. -/
def execWrPktLen (_v : Word) (s : State) : Result := ignoreWrite s

/-- WR PKT_CSUM (R223): `PKT.csum <- v[15:0]`. -/
def execWrPktCsum (v : Word) (s : State) : Result :=
  .next (s.withPkt { s.pkt with csum := v.extractLsb' 0 16 })

/-- WR PAYLOAD[k] (R224). -/
def execWrPayload (k : BitVec 6) (v : Word) (s : State) : Result :=
  .next (s.withPkt (s.pkt.setWindow k v))

/-- WR at a reserved offset (R226): ignored. -/
def execWrReserved (_off : BitVec 9) (_v : Word) (s : State) : Result := ignoreWrite s

end Sys2Proof.Machine
end

