-- ==== Sys2Proof/Machine/Dispatch.lean ====
section
/-! DEFINITION. The meaning of every operation, one arm for each row of spec/opcode_table.json. -/

namespace Sys2Proof.Machine

def exec (i : Instr) (s : State) : Host.Outcome State Fault Refusal :=
  match i with
  | .cmdNew => Sys2Proof.Machine.execCmdNew s
  | .cmdFrom c n => Sys2Proof.Machine.execCmdFrom c n s
  | .cmdWrite cap => Sys2Proof.Machine.execCmdWrite cap s
  | .cmdValidate => Sys2Proof.Machine.execCmdValidate s
  | .cmdParse m => Sys2Proof.Machine.execCmdParse m s
  | .cmdCalc => Sys2Proof.Machine.execCmdCalc s
  | .cmdIllegal w => Sys2Proof.Machine.execCmdIllegal w s
  | .rdCtrl => Sys2Proof.Machine.execRdCtrl s
  | .wrCtrl w => Sys2Proof.Machine.execWrCtrl w s
  | .rdPtr => Sys2Proof.Machine.execRdPtr s
  | .wrPtr v => Sys2Proof.Machine.execWrPtr v s
  | .rdStatus => Sys2Proof.Machine.execRdStatus s
  | .wrStatus v => Sys2Proof.Machine.execWrStatus v s
  | .rdResult => Sys2Proof.Machine.execRdResult s
  | .wrResult v => Sys2Proof.Machine.execWrResult v s
  | .rdPktSync => Sys2Proof.Machine.execRdPktSync s
  | .wrPktSync v => Sys2Proof.Machine.execWrPktSync v s
  | .rdPktCmd => Sys2Proof.Machine.execRdPktCmd s
  | .wrPktCmd v => Sys2Proof.Machine.execWrPktCmd v s
  | .rdPktLen => Sys2Proof.Machine.execRdPktLen s
  | .wrPktLen v => Sys2Proof.Machine.execWrPktLen v s
  | .rdPktCsum => Sys2Proof.Machine.execRdPktCsum s
  | .wrPktCsum v => Sys2Proof.Machine.execWrPktCsum v s
  | .rdPayload k => Sys2Proof.Machine.execRdPayload k s
  | .wrPayload k v => Sys2Proof.Machine.execWrPayload k v s
  | .rdReserved off => Sys2Proof.Machine.execRdReserved off s
  | .wrReserved off v => Sys2Proof.Machine.execWrReserved off v s

end Sys2Proof.Machine
end

