-- ==== Sys2Proof/Machine/Step.lean ====
section
/-! DEFINITION. One step: the host's next event (log entry 3), and a command or register access through `exec`.

The block fetches nothing and has no program counter (R32, R73): what runs next is what the host does next. -/

namespace Sys2Proof.Machine

/-- What one host event does. An access that R62 does not admit has no step: the host is stuck. -/
def stepEvent (e : HostEvent) (s : State) : Host.Outcome State Fault Refusal :=
  match e with
  | .access a =>
    match decodeAccess s.platform a with
    | .ok i => exec i s
    | .error why => .fault (.hostStuck why)
  | .store a b => .next (storeByte s a b)
  | .load a => loadByte s a
  | .reset => .next (blockReset s)

/-- One step. Where the host does nothing, nothing happens (log entry 5). -/
def step (s : State) : Host.Outcome State Fault Refusal :=
  match s.inputs with
  | [] => .next s
  | e :: rest => stepEvent e (s.withInputs rest)

/-- The state whose very next step performs the operation with the bits `w` of a row of `nbits` bits: the host's
access that performs it stands first in the list of what the host does (log entry 2). -/
def State.withFetchWord (s : State) (nbits w : Nat) : State :=
  match tableWord nbits w with
  | none => s
  | some e => s.withInputs (.access (e.access s.platform) :: s.inputs)

end Sys2Proof.Machine
end

