-- ==== Sys2Proof/Machine/HostProgram.lean ====
section
/-! DEFINITION. The host's side of a program: an operation as the event that performs it (R100), and the
pseudo-commands of R101. -/

namespace Sys2Proof.Machine

/-- R100: the host event that performs an operation: a command word written to CTRL, or the register access itself. -/
def issue (p : Platform) (i : Instr) : HostEvent := .access ((encode i).access p)

/-- R101: `FROM c` is `FROM c, 0`. -/
def pseudoFrom (c : Byte) : Instr := .cmdFrom c 0

/-- R101: `BUILD c, src, n` is `wr PTR, src` then `FROM c, n`. -/
def hostBuild (c : Byte) (src : Word) (n : Half) : List Instr := [.wrPtr src, .cmdFrom c n]

/-- R101: `SEND dst, cap` is `wr PTR, dst` then `WRITE cap`. -/
def hostSend (dst : Word) (cap : Half) : List Instr := [.wrPtr dst, .cmdWrite cap]

/-- R101: `RECV src, m` is `wr PTR, src`, `PARSE m`, then `VALIDATE`, whatever the status between them. -/
def hostRecv (src : Word) (m : Half) : List Instr := [.wrPtr src, .cmdParse m, .cmdValidate]

/-- The state in which the host performs these operations next, in this order, before what it did already intend. -/
def State.withProgram (s : State) (is : List Instr) : State :=
  s.withInputs (is.map (issue s.platform) ++ s.inputs)

end Sys2Proof.Machine
end

