-- ==== Sys2Proof/Safety.lean ====
section
/-! DEFINITION. The terms the claims use: the invariant of a good state, what a frame keeps, which bytes of host memory
a command may touch (R65), and the value a register shows to the host (R9, R220). -/

namespace Sys2Proof.Machine

/-- A good state: host memory is canonical; STATUS holds no reserved code, and a detail only beside FRAMING (R30);
and RESULT is 0 beside an error (R241). -/
def Inv (s : State) : Prop :=
  s.mem.wf = true ∧ s.status.legal = true ∧ (s.status.err ≠ 0 → s.result = 0)

/-! ### Frames -/

/-- Every byte of host memory reads as before. -/
def HostMemKept (s t : State) : Prop := ∀ a : Word, hostByte t a = hostByte s a

/-- What is outside the block is unchanged: the platform, what the host does next, and what it read last. -/
def HostSideKept (s t : State) : Prop :=
  t.platform = s.platform ∧ t.inputs = s.inputs ∧ t.hostData = s.hostData

/-! ### The operand region -/

/-- Byte `i` of the region at PTR, as host memory holds it (R64). -/
def regionByte (s : State) (i : Nat) : Byte := hostByte s (ea s.ptr i)

/-- The platform admits the first `n` bytes of the region at PTR in a direction (R66). -/
def RegionAdmitted (s : State) (d : Dir) (n : Nat) : Prop :=
  ∀ i, i < n → hostAdmits s.platform (ea s.ptr i) d = true

/-- Byte `j` of the region is the first that the platform does not admit. -/
def FirstNotAdmitted (s : State) (d : Dir) (j : Nat) : Prop :=
  RegionAdmitted s d j ∧ hostAdmits s.platform (ea s.ptr j) d = false

/-- The first two bytes of the region are AA 55 (R201). -/
def syncPresent (s : State) : Bool := regionByte s 0 == 0xAA && regionByte s 1 == 0x55

/-- R65, R201: how many bytes PARSE reads, stopping at the first failed check. -/
def parseReach (m : Half) (s : State) : Nat :=
  if m.toNat < 2 then 0
  else if syncPresent s = false ∨ m.toNat < 4 then 2
  else if m.toNat < (regionByte s 3).toNat + 6 then 4
  else (regionByte s 3).toNat + 6

/-- R95: the command a write to CTRL performs; any other operation is itself. -/
def performed : Instr → Instr
  | .wrCtrl w => decodeCommand w
  | i => i

/-- R65: the direction and the number of the bytes of the region at PTR that an operation accesses. -/
def regionUse (i : Instr) (s : State) : Dir × Nat :=
  match performed i with
  | .cmdFrom _ n => (.read, if n.toNat ≤ 255 then n.toNat else 0)
  | .cmdWrite cap => (.write, if s.pkt.len.toNat + 6 ≤ cap.toNat then s.pkt.len.toNat + 6 else 0)
  | .cmdParse m => (.read, parseReach m s)
  | _ => (.read, 0)

/-! ### The host's register accesses -/

/-- R9: `HostRegRead(off)`, an admitted read at an offset. -/
def hostRegRead (s : State) (off : BitVec 9) : Result :=
  match decodeBus .read off 0 with
  | .ok i => exec i s
  | .error why => .fault (.hostStuck why)

/-- R9: `HostRegWrite(off, v)`, an admitted write at an offset. -/
def hostRegWrite (s : State) (off : BitVec 9) (v : Word) : Result :=
  match decodeBus .write off v with
  | .ok i => exec i s
  | .error why => .fault (.hostStuck why)

/-- The value a read at an offset returns; `none` where it returns none. -/
def registerValue (s : State) (off : BitVec 9) : Option Word :=
  match hostRegRead s off with
  | .next t => t.hostData
  | .fault _ => none
  | .refused _ => none

/-- R21: the bits of the register at an offset that a host write sets. -/
def writableBits (off : BitVec 9) : Word :=
  if off = 0x004#9 then 0xFFFFFFFF
  else if off = 0x014#9 then 0x000000FF
  else if off = 0x01C#9 then 0x0000FFFF
  else if off = 0x1FC#9 then 0x00FFFFFF
  else if 0x100#9 ≤ off then 0xFFFFFFFF
  else 0

/-! ### Comparing two runs -/

/-- A change of the state, carried through an outcome: the next state, or the state an engine is stuck in. -/
def mapResult (f : State → State) : Result → Result
  | .next t => .next (f t)
  | .fault (.engineStuck a d left) => .fault (.engineStuck a d (f left))
  | .fault (.hostStuck why) => .fault (.hostStuck why)
  | .refused r => .refused r

/-- The platform with another `HOST_BUS_ENDIAN`. -/
def State.withEndian (s : State) (e : Endian) : State := s.withPlatform { s.platform with endian := e }

/-- R26: two packets that agree in command, length and stored checksum and in the payload bytes below the length. -/
def SameTransmitted (p q : Packet) : Prop :=
  q.cmd = p.cmd ∧ q.len = p.len ∧ q.csum = p.csum ∧ ∀ i, i < p.len.toNat → q.byte i = p.byte i

/-- Two packets of one length and stored checksum that differ in exactly one byte of the checksum domain after the
sync bytes: the command, or one payload byte below the length. -/
def OneByteCorrupted (p q : Packet) : Prop :=
  q.len = p.len ∧ q.csum = p.csum ∧
    ((q.cmd ≠ p.cmd ∧ ∀ i, i < p.len.toNat → q.byte i = p.byte i) ∨
     (q.cmd = p.cmd ∧ ∃ j, j < p.len.toNat ∧ q.byte j ≠ p.byte j ∧
        ∀ i, i < p.len.toNat → i ≠ j → q.byte i = p.byte i))

end Sys2Proof.Machine
end

