-- ==== Sys2Proof/Certificates/Slice0/Obligations.lean ====
section
/-! DEFINITION. The statements for the provers. Each docstring names the rule of spec/ it formalises.

Every statement is about the runs of R277: the machine's one list of host events lands between commands only, so no
other agent touches the operand region during a command (log entry 3). -/

open Sys2Proof Sys2Proof.Machine

/-! ### Reset -/

/-- R270: every piece of state after reset; PKT_SYNC and CTRL read as listed, and the packet equals NEW's result. -/
def Obligations.ResetStateIsAsListed : Prop :=
  State.reset.pkt.cmd = 0x00 ∧ State.reset.pkt.len = 0x00 ∧ (∀ i, i < 255 → State.reset.pkt.byte i = 0x00) ∧
  State.reset.pkt.csum = 0x0000 ∧ State.reset.ptr = 0x00000000 ∧
  State.reset.status.err = 0 ∧ State.reset.status.fdet = 0 ∧ State.reset.result = 0x0000 ∧
  exec .rdPktSync State.reset = .next (State.reset.withHostData 0x000055AA) ∧
  exec .rdCtrl State.reset = .next (State.reset.withHostData 0x00000000) ∧
  exec .cmdNew State.reset = .next State.reset

/-- R270: a reset between commands gives every register its reset value; R271: it touches no byte of host memory.
That it also keeps the platform, the rest of what the host does next, and the value the host last read is the model's
own choice (log entries 10 and 15). -/
def Obligations.BlockResetKeepsHostMemory : Prop :=
  ∀ (s : State) (rest : List HostEvent), s.inputs = .reset :: rest →
    ∃ t, step s = .next t ∧ t.pkt = State.reset.pkt ∧ t.ptr = State.reset.ptr ∧ t.status = State.reset.status ∧
      t.result = State.reset.result ∧ HostMemKept s t ∧ t.platform = s.platform ∧ t.inputs = rest ∧
      t.hostData = s.hostData

/-! ### Encoding -/

/-- R93, R99: words and register accesses written out from the spec's encodings decode to what they stand for. -/
def Obligations.WrittenOutEncodingsDecode : Prop :=
  decode (.cw 0b00000000000000000000000000000001#32) = .ok .cmdNew ∧
  decode (.cw 0b00000000000000110000000100000010#32) = .ok (.cmdFrom 0x01 3) ∧
  decode (.cw 0b00000001000001010000000000000011#32) = .ok (.cmdWrite 261) ∧
  decode (.cw 0b00000000000000000000000000000100#32) = .ok .cmdValidate ∧
  decode (.cw 0b00000000000010010000000000000101#32) = .ok (.cmdParse 9) ∧
  decode (.cw 0b00000000000000000000000000000110#32) = .ok .cmdCalc ∧
  decode (.cw 0b00000000000000000000000100000011#32) = .ok (.cmdIllegal 0x00000103) ∧
  decode (.bus .write 0b000000000#9 0x00000006) = .ok (.wrCtrl 0x00000006) ∧
  decode (.bus .read 0b000001000#9 0) = .ok .rdStatus ∧
  decode (.bus .write 0b000011100#9 0x74FF) = .ok (.wrPktCsum 0x74FF) ∧
  decode (.bus .read 0b111111100#9 0) = .ok (.rdPayload 63) ∧
  decode (.bus .read 0b000100000#9 0) = .ok (.rdReserved 0x020)

/-- R96: each word falls under exactly one branch, the one whose mask and match in the opcode table it has;
the operands are `w[15:8]` and `w[31:16]` (R92). -/
def Obligations.DecoderPartitionsCommandWords : Prop :=
  ∀ w : Word,
    (decodeCommand w = .cmdNew ↔ w = 0x00000001) ∧
    (∀ c n, decodeCommand w = .cmdFrom c n ↔
      w &&& 0x000000FF = 0x00000002 ∧ c = w.extractLsb' 8 8 ∧ n = w.extractLsb' 16 16) ∧
    (∀ cap, decodeCommand w = .cmdWrite cap ↔ w &&& 0x0000FFFF = 0x00000003 ∧ cap = w.extractLsb' 16 16) ∧
    (decodeCommand w = .cmdValidate ↔ w = 0x00000004) ∧
    (∀ m, decodeCommand w = .cmdParse m ↔ w &&& 0x0000FFFF = 0x00000005 ∧ m = w.extractLsb' 16 16) ∧
    (decodeCommand w = .cmdCalc ↔ w = 0x00000006) ∧
    (∀ x, decodeCommand w = .cmdIllegal x ↔
      x = w ∧ w ≠ 0x00000001 ∧ w &&& 0x000000FF ≠ 0x00000002 ∧ w &&& 0x0000FFFF ≠ 0x00000003 ∧
        w ≠ 0x00000004 ∧ w &&& 0x0000FFFF ≠ 0x00000005 ∧ w ≠ 0x00000006)

/-- R94: a nonzero must-be-zero field makes the word ILLEGAL; FROM has no such field. -/
def Obligations.MustBeZeroFieldsAreChecked : Prop :=
  ∀ w : Word,
    ((w.extractLsb' 0 8 = 0x01#8 ∨ w.extractLsb' 0 8 = 0x04#8 ∨ w.extractLsb' 0 8 = 0x06#8) →
      (w.extractLsb' 8 8 ≠ 0#8 ∨ w.extractLsb' 16 16 ≠ 0#16) → decodeCommand w = .cmdIllegal w) ∧
    ((w.extractLsb' 0 8 = 0x03#8 ∨ w.extractLsb' 0 8 = 0x05#8) → w.extractLsb' 8 8 ≠ 0#8 →
      decodeCommand w = .cmdIllegal w) ∧
    (w.extractLsb' 0 8 = 0x02#8 → decodeCommand w = .cmdFrom (w.extractLsb' 8 8) (w.extractLsb' 16 16))

/-- R99: the register access table, by offset and direction. -/
def Obligations.RegisterAccessesDecodeByOffset : Prop :=
  ∀ v : Word,
    decodeBus .read 0x000 v = .ok .rdCtrl ∧ decodeBus .write 0x000 v = .ok (.wrCtrl v) ∧
    decodeBus .read 0x004 v = .ok .rdPtr ∧ decodeBus .write 0x004 v = .ok (.wrPtr v) ∧
    decodeBus .read 0x008 v = .ok .rdStatus ∧ decodeBus .write 0x008 v = .ok (.wrStatus v) ∧
    decodeBus .read 0x00C v = .ok .rdResult ∧ decodeBus .write 0x00C v = .ok (.wrResult v) ∧
    decodeBus .read 0x010 v = .ok .rdPktSync ∧ decodeBus .write 0x010 v = .ok (.wrPktSync v) ∧
    decodeBus .read 0x014 v = .ok .rdPktCmd ∧ decodeBus .write 0x014 v = .ok (.wrPktCmd v) ∧
    decodeBus .read 0x018 v = .ok .rdPktLen ∧ decodeBus .write 0x018 v = .ok (.wrPktLen v) ∧
    decodeBus .read 0x01C v = .ok .rdPktCsum ∧ decodeBus .write 0x01C v = .ok (.wrPktCsum v) ∧
    (∀ off : BitVec 9, 0x020 ≤ off.toNat → off.toNat ≤ 0x0FC → off.toNat % 4 = 0 →
      decodeBus .read off v = .ok (.rdReserved off) ∧ decodeBus .write off v = .ok (.wrReserved off v)) ∧
    (∀ k : BitVec 6,
      decodeBus .read (BitVec.ofNat 9 (0x100 + 4 * k.toNat)) v = .ok (.rdPayload k) ∧
      decodeBus .write (BitVec.ofNat 9 (0x100 + 4 * k.toNat)) v = .ok (.wrPayload k v))

/-- R93, R96, R99, R100: the encoding of every well-formed operation, with every operand, decodes to it. -/
def Obligations.EncodingDecodesToTheOperation : Prop :=
  ∀ i : Instr, WellFormed i → decode (encode i) = .ok i

/-- R96, R99: whatever decodes is a well-formed operation, and its encoding is what was decoded, but for the value
beside a read, which carries none. -/
def Obligations.DecodedOperationEncodesBack : Prop :=
  ∀ (e : Encoded) (i : Instr), decode e = .ok i →
    WellFormed i ∧
    encode i = match e with
      | .cw w => .cw w
      | .bus .read off _ => .bus .read off 0
      | .bus .write off v => .bus .write off v

/-! ### Steps -/

/-- R62: an access is admitted exactly when it is 32 bits wide at an aligned offset below 0x200.
An admitted access performs a well-formed operation; any other has no step, and the host is stuck. -/
def Obligations.HostAccessAdmission : Prop :=
  ∀ (s : State) (a : BusAccess) (rest : List HostEvent), s.inputs = .access a :: rest →
    ((a.width = 32 ∧ (a.addr - s.platform.regBase).toNat % 4 = 0 ∧ (a.addr - s.platform.regBase).toNat < 0x200) →
      ∃ i, WellFormed i ∧ decodeBus a.dir ((a.addr - s.platform.regBase).setWidth 9) a.data = .ok i ∧
        step s = exec i (s.withInputs rest)) ∧
    (¬ (a.width = 32 ∧ (a.addr - s.platform.regBase).toNat % 4 = 0 ∧ (a.addr - s.platform.regBase).toNat < 0x200) →
      ∃ why, step s = .fault (.hostStuck why))

/-- A step performs the operation the host's next access decodes to, with that access taken off the list. -/
def Obligations.StepPerformsTheDecodedAccess : Prop :=
  ∀ (s : State) (a : BusAccess) (rest : List HostEvent) (i : Instr), s.inputs = .access a :: rest →
    decodeAccess s.platform a = .ok i → step s = exec i (s.withInputs rest)

/-- R95: a host write of `w` to CTRL performs, in that one step, the command `w` decodes to, in the state the write
finds. -/
def Obligations.CtrlWritePerformsTheCommand : Prop :=
  ∀ (s : State) (w : Word) (rest : List HostEvent), s.inputs = .access ⟨.write, 32, s.platform.regBase, w⟩ :: rest →
    step s = exec (decodeCommand w) (s.withInputs rest) ∧
    ∀ u : State, exec (.wrCtrl w) u = exec (decodeCommand w) u

/-- R95, R100: the event by which the host performs a well-formed operation makes the next step perform it, whatever
the platform's `REG_BASE`. -/
def Obligations.IssuedOperationIsPerformed : Prop :=
  ∀ (s : State) (i : Instr) (rest : List HostEvent), WellFormed i → s.inputs = issue s.platform i :: rest →
    step s = exec i (s.withInputs rest)

/-- An operation placed by its opcode-table word is the one the next step performs (log entry 2: the model's own
placing). -/
def Obligations.PlacedTableWordIsPerformed : Prop :=
  ∀ (s : State) (nbits w : Nat) (i : Instr), decodeTableWord nbits w = some i →
    step (s.withFetchWord nbits w) = exec i s

/-- R12, R245: a step never refuses; it stops only where a host access is not admitted (R62) or where a command's
byte access is not admitted (R66), and then that command was issued by a CTRL write. -/
def Obligations.OnlyTheTwoStuckCasesStop : Prop :=
  ∀ s : State, (∀ r, step s ≠ .refused r) ∧
    ∀ f, step s = .fault f →
      ∃ a rest, s.inputs = .access a :: rest ∧
        ((∃ why, f = .hostStuck why ∧ admitAccess s.platform a = .error why) ∨
         (∃ w addr d left, f = .engineStuck addr d left ∧ decodeAccess s.platform a = .ok (.wrCtrl w) ∧
            hostAdmits s.platform addr d = false))

/-- R101: the pseudo-commands run the operations they expand to, one a step; RECV's VALIDATE runs whatever status its
PARSE has left. -/
def Obligations.HostMacrosRunTheirOperations : Prop :=
  ∀ (s : State) (c : Byte) (src dst : Word) (n cap m : Half),
    encode (pseudoFrom c) = .cw ((c.setWidth 32 <<< 8) ||| 0x02) ∧
    (∃ t, step (s.withProgram (hostBuild c src n)) = .next t ∧ step t = exec (.cmdFrom c n) (s.withPtr src)) ∧
    (∃ t, step (s.withProgram (hostSend dst cap)) = .next t ∧ step t = exec (.cmdWrite cap) (s.withPtr dst)) ∧
    (∃ t, step (s.withProgram (hostRecv src m)) = .next t ∧
      step t = exec (.cmdParse m) ((s.withPtr src).withProgram [.cmdValidate]) ∧
      ∀ u, step t = .next u → step u = exec .cmdValidate (u.withInputs s.inputs))

/-! ### Operand regions and host memory -/

/-- R64: byte `i` of the region is at `(PTR + i) mod 2^32`. -/
def Obligations.RegionAddressWraps : Prop :=
  ∀ (ptr : Word) (i : Nat), (ea ptr i).toNat = (ptr.toNat + i) % 2 ^ 32

/-- R67, R70 (3), of plain memory at admitted addresses: a host load returns the byte last stored there; a store
changes no other byte and no register. That the host's own stores and loads reach every address, whatever `host_admits`
says, and that memory is plain at every address, is the model's choice (log entries 9 and 14). -/
def Obligations.LoadReturnsTheLastStore : Prop :=
  ∀ (s : State) (a : Word) (b : Byte) (rest : List HostEvent), s.inputs = .store a b :: .load a :: rest →
    ∃ t, step s = .next t ∧ (∀ x, x ≠ a → hostByte t x = hostByte s x) ∧ t.pkt = s.pkt ∧ t.ptr = s.ptr ∧
      t.status = s.status ∧ t.result = s.result ∧ t.platform = s.platform ∧ t.hostData = s.hostData ∧
      step t = .next ((t.withInputs rest).withHostData (b.setWidth 32))

/-- R279: after a successful WRITE, the host's loads of the destination bytes return the frame, "provided the platform
keeps the host's view coherent with the engine's writes". Every platform of the model does so (log entry 14, deduced
from R67 and R74), and the host's loads are not subject to `host_admits` (log entry 9, the model's choice). -/
def Obligations.HostSeesTheWrittenFrame : Prop :=
  ∀ (s t : State) (cap : Half), exec (.cmdWrite cap) s = .next t → t.status.err = 0 →
    ∀ (i : Nat) (b : Byte) (rest : List HostEvent), s.pkt.frame[i]? = some b →
      step (t.withInputs (.load (ea s.ptr i) :: rest)) =
        .next ((t.withInputs rest).withHostData (b.setWidth 32))

/-- R281: a command whose byte accesses are all admitted completes, and no other does; a register access always
completes, and a write to CTRL completes with its command. -/
def Obligations.AdmittedOperationsComplete : Prop :=
  (∀ (i : Instr) (s : State),
    (∃ t, exec i s = .next t) ↔ RegionAdmitted s (regionUse i s).1 (regionUse i s).2) ∧
  ∀ (w : Word) (s : State), RegionAdmitted s (regionUse (decodeCommand w) s).1 (regionUse (decodeCommand w) s).2 →
    ∃ t, exec (decodeCommand w) s = .next t ∧ exec (.wrCtrl w) s = .next t

/-- R66: where the next byte access of a command is not admitted, the engine is stuck at that address.
No register has changed; a command that reads has changed nothing, and WRITE has written the bytes before it and no
other. -/
def Obligations.EngineStuckAtFirstNotAdmitted : Prop :=
  ∀ (i : Instr) (s : State) (j : Nat), j < (regionUse i s).2 → FirstNotAdmitted s (regionUse i s).1 j →
    ∃ left, exec i s = .fault (.engineStuck (ea s.ptr j) (regionUse i s).1 left) ∧
      left.pkt = s.pkt ∧ left.ptr = s.ptr ∧ left.status = s.status ∧ left.result = s.result ∧
      HostSideKept s left ∧
      ((regionUse i s).1 = .read → HostMemKept s left) ∧
      ((regionUse i s).1 = .write →
        (∀ k, k < j → s.pkt.frame[k]? = some (hostByte left (ea s.ptr k))) ∧
        ∀ x, (∀ k, k < j → x ≠ ea s.ptr k) → hostByte left x = hostByte s x)

/-! ### The commands -/

/-- R121: NEW zeroes the packet register, does not compute the checksum, and completes. -/
def Obligations.NewClearsThePacket : Prop :=
  encode .cmdNew = .cw 0x00000001 ∧
  ∀ s : State, ∃ t, exec .cmdNew s = .next t ∧
    t.pkt.cmd = 0x00 ∧ t.pkt.len = 0x00 ∧ (∀ i, i < 255 → t.pkt.byte i = 0x00) ∧ t.pkt.csum = 0x0000 ∧
    t.status.word = 0x00000000 ∧ t.result = 0x0000 ∧ t.ptr = s.ptr ∧ HostMemKept s t ∧ HostSideKept s t ∧
    exec .cmdNew t = .next t

/-- R121 and R270, their derived sentences: the packet after NEW, and after reset, has checksum 0xEC31 and does not
validate. It rests on D15 of spec/92_eei_decisions.md, the spec's own choice of `csum = 0x0000` for NEW. -/
def Obligations.NewPacketDoesNotValidate : Prop :=
  (∀ s t : State, exec .cmdNew s = .next t →
    exec .cmdCalc t = .next (t.withOutcome ⟨0, 0⟩ 0xEC31) ∧
    exec .cmdValidate t = .next (t.withOutcome ⟨3, 0⟩ 0x0000)) ∧
  exec .cmdValidate State.reset = .next (State.reset.withOutcome ⟨3, 0⟩ 0x0000)

/-- R122: FROM. More than 255 bytes is PAYLOAD_TOO_LARGE, before any access; else the region's bytes make the packet,
whose checksum is stored; and a source byte that is not admitted leaves FROM stuck with nothing changed. -/
def Obligations.FromMakesThePacket : Prop :=
  ∀ (c : Byte) (n : Half) (s : State),
    encode (.cmdFrom c n) = .cw ((n.setWidth 32 <<< 16) ||| (c.setWidth 32 <<< 8) ||| 0x02) ∧
    (255 < n.toNat → exec (.cmdFrom c n) s = .next (s.withOutcome ⟨1, 0⟩ 0x0000)) ∧
    (n.toNat ≤ 255 → RegionAdmitted s .read n.toNat →
      ∃ t, exec (.cmdFrom c n) s = .next t ∧
        t.pkt.cmd = c ∧ t.pkt.len = n.extractLsb' 0 8 ∧
        (∀ i, i < 255 → t.pkt.byte i = if i < n.toNat then regionByte s i else 0x00) ∧
        t.pkt.csum = crc16 ([0xAA, 0x55, c, n.extractLsb' 0 8] ++ (List.range n.toNat).map (regionByte s)) ∧
        t.pkt.csum = t.pkt.checksum ∧
        t.status.word = 0x00000000 ∧ t.result = 0x0000 ∧ t.ptr = s.ptr ∧ HostMemKept s t ∧ HostSideKept s t) ∧
    (n.toNat ≤ 255 → ∀ j, j < n.toNat → FirstNotAdmitted s .read j →
      exec (.cmdFrom c n) s = .fault (.engineStuck (ea s.ptr j) .read s))

/-- R140: the frame layout, byte by byte, with the stored checksum, low byte first. -/
def Obligations.FrameLayout : Prop :=
  ∀ p : Packet,
    p.frame.length = p.len.toNat + 6 ∧
    p.frame[0]? = some 0xAA ∧ p.frame[1]? = some 0x55 ∧ p.frame[2]? = some p.cmd ∧ p.frame[3]? = some p.len ∧
    (∀ i, i < p.len.toNat → p.frame[4 + i]? = some (p.byte i)) ∧
    p.frame[4 + p.len.toNat]? = some (p.csum.extractLsb' 0 8) ∧
    p.frame[5 + p.len.toNat]? = some (p.csum.extractLsb' 8 8)

/-- R141: WRITE. A capacity below `len + 6` is BUFFER_TOO_SMALL with no byte written; else exactly the frame's bytes
are written at the addresses of the region, and RESULT is their number; a destination byte that is not admitted
leaves WRITE stuck with the bytes before it written. -/
def Obligations.WriteSendsTheFrame : Prop :=
  ∀ (cap : Half) (s : State),
    encode (.cmdWrite cap) = .cw ((cap.setWidth 32 <<< 16) ||| 0x03) ∧
    (cap.toNat < s.pkt.len.toNat + 6 → exec (.cmdWrite cap) s = .next (s.withOutcome ⟨2, 0⟩ 0x0000)) ∧
    (s.pkt.len.toNat + 6 ≤ cap.toNat → RegionAdmitted s .write (s.pkt.len.toNat + 6) →
      ∃ t, exec (.cmdWrite cap) s = .next t ∧
        (∀ i, i < s.pkt.len.toNat + 6 → s.pkt.frame[i]? = some (hostByte t (ea s.ptr i))) ∧
        (∀ x, (∀ i, i < s.pkt.len.toNat + 6 → x ≠ ea s.ptr i) → hostByte t x = hostByte s x) ∧
        t.status.word = 0x00000000 ∧ t.result.toNat = s.pkt.len.toNat + 6 ∧
        t.pkt = s.pkt ∧ t.ptr = s.ptr ∧ HostSideKept s t) ∧
    (s.pkt.len.toNat + 6 ≤ cap.toNat → ∀ j, j < s.pkt.len.toNat + 6 → FirstNotAdmitted s .write j →
      ∃ m, exec (.cmdWrite cap) s = .fault (.engineStuck (ea s.ptr j) .write (s.withMem m)) ∧
        (∀ k, k < j → s.pkt.frame[k]? = some (hostByte (s.withMem m) (ea s.ptr k))) ∧
        ∀ x, (∀ k, k < j → x ≠ ea s.ptr k) → hostByte (s.withMem m) x = hostByte s x)

/-- R180: VALIDATE compares the checksum recomputed over sync, command, length and the meaningful payload bytes with
the stored one; only STATUS and RESULT change. -/
def Obligations.ValidateComparesChecksums : Prop :=
  encode .cmdValidate = .cw 0x00000004 ∧
  ∀ s : State,
    (crc16 ([0xAA, 0x55, s.pkt.cmd, s.pkt.len] ++ (List.range s.pkt.len.toNat).map s.pkt.byte) = s.pkt.csum →
      exec .cmdValidate s = .next (s.withOutcome ⟨0, 0⟩ 0x0000)) ∧
    (crc16 ([0xAA, 0x55, s.pkt.cmd, s.pkt.len] ++ (List.range s.pkt.len.toNat).map s.pkt.byte) ≠ s.pkt.csum →
      exec .cmdValidate s = .next (s.withOutcome ⟨3, 0⟩ 0x0000))

/-- R164: CALC returns the checksum in RESULT and stores it nowhere; only STATUS and RESULT change. -/
def Obligations.CalcReadsOutTheChecksum : Prop :=
  encode .cmdCalc = .cw 0x00000006 ∧
  ∀ s : State,
    exec .cmdCalc s = .next (s.withOutcome ⟨0, 0⟩
      (crc16 ([0xAA, 0x55, s.pkt.cmd, s.pkt.len] ++ (List.range s.pkt.len.toNat).map s.pkt.byte)))

/-- R201: PARSE. Its checks run in the order of the rule and the first that fails decides FDET, with nothing but
STATUS and RESULT changed; a complete frame rewrites every field of the packet register; and a byte that is not
admitted leaves PARSE stuck with nothing changed. -/
def Obligations.ParseLoadsTheFrame : Prop :=
  ∀ (m : Half) (s : State),
    encode (.cmdParse m) = .cw ((m.setWidth 32 <<< 16) ||| 0x05) ∧
    (m.toNat < 2 → exec (.cmdParse m) s = .next (s.withOutcome ⟨4, 1⟩ 0x0000)) ∧
    (2 ≤ m.toNat → RegionAdmitted s .read 2 → (regionByte s 0 ≠ 0xAA ∨ regionByte s 1 ≠ 0x55) →
      exec (.cmdParse m) s = .next (s.withOutcome ⟨4, 2⟩ 0x0000)) ∧
    (2 ≤ m.toNat → m.toNat < 4 → RegionAdmitted s .read 2 → regionByte s 0 = 0xAA → regionByte s 1 = 0x55 →
      exec (.cmdParse m) s = .next (s.withOutcome ⟨4, 1⟩ 0x0000)) ∧
    (4 ≤ m.toNat → m.toNat < (regionByte s 3).toNat + 6 → RegionAdmitted s .read 4 →
      regionByte s 0 = 0xAA → regionByte s 1 = 0x55 →
      exec (.cmdParse m) s = .next (s.withOutcome ⟨4, 1⟩ 0x0000)) ∧
    ((regionByte s 3).toNat + 6 ≤ m.toNat → RegionAdmitted s .read ((regionByte s 3).toNat + 6) →
      regionByte s 0 = 0xAA → regionByte s 1 = 0x55 →
      ∃ t, exec (.cmdParse m) s = .next t ∧
        t.pkt.cmd = regionByte s 2 ∧ t.pkt.len = regionByte s 3 ∧
        (∀ i, i < 255 →
          t.pkt.byte i = if i < (regionByte s 3).toNat then regionByte s (4 + i) else 0x00) ∧
        t.pkt.csum = regionByte s (5 + (regionByte s 3).toNat) ++ regionByte s (4 + (regionByte s 3).toNat) ∧
        t.status.word = 0x00000000 ∧ t.result.toNat = (regionByte s 3).toNat + 6 ∧
        t.ptr = s.ptr ∧ HostMemKept s t ∧ HostSideKept s t) ∧
    (∀ j, j < parseReach m s → FirstNotAdmitted s .read j →
      exec (.cmdParse m) s = .fault (.engineStuck (ea s.ptr j) .read s))

/-- R97: the words that are ILLEGAL, by OP and must-be-zero field, and what ILLEGAL does: ERR 5, RESULT 0, and no
other change. -/
def Obligations.IllegalCommandIsRecorded : Prop :=
  ∀ (w : Word) (s : State),
    ((decodeCommand w = .cmdIllegal w) ↔
      (w.extractLsb' 0 8 = 0x00#8 ∨ 0x07#8 ≤ w.extractLsb' 0 8 ∨
        ((w.extractLsb' 0 8 = 0x01#8 ∨ w.extractLsb' 0 8 = 0x04#8 ∨ w.extractLsb' 0 8 = 0x06#8) ∧
          (w.extractLsb' 8 8 ≠ 0#8 ∨ w.extractLsb' 16 16 ≠ 0#16)) ∨
        ((w.extractLsb' 0 8 = 0x03#8 ∨ w.extractLsb' 0 8 = 0x05#8) ∧ w.extractLsb' 8 8 ≠ 0#8))) ∧
    exec (.cmdIllegal w) s = .next (s.withOutcome ⟨5, 0⟩ 0x0000) ∧
    (exec (.wrCtrl 0x00000007) s = .next (s.withOutcome ⟨5, 0⟩ 0x0000) ∧
      (⟨5, 0⟩ : Status).word = 0x00000005)

/-- R241: what each command that completes leaves in ERR, FDET and RESULT; and that no register access but a write to
CTRL changes STATUS or RESULT. -/
def Obligations.OutcomesOfEveryCommand : Prop :=
  ∀ (i : Instr) (s t : State), exec i s = .next t →
    match performed i with
    | .cmdNew => t.status = ⟨0, 0⟩ ∧ t.result = 0
    | .cmdFrom _ _ => t.result = 0 ∧ (t.status = ⟨0, 0⟩ ∨ t.status = ⟨1, 0⟩)
    | .cmdWrite _ =>
      (t.status = ⟨0, 0⟩ ∧ t.result.toNat = s.pkt.len.toNat + 6) ∨ (t.status = ⟨2, 0⟩ ∧ t.result = 0)
    | .cmdValidate => t.result = 0 ∧ (t.status = ⟨0, 0⟩ ∨ t.status = ⟨3, 0⟩)
    | .cmdParse _ =>
      (t.status = ⟨0, 0⟩ ∧ t.result.toNat = (regionByte s 3).toNat + 6) ∨
        (t.result = 0 ∧ (t.status = ⟨4, 1⟩ ∨ t.status = ⟨4, 2⟩))
    | .cmdCalc => t.status = ⟨0, 0⟩ ∧ t.result = s.pkt.checksum
    | .cmdIllegal _ => t.status = ⟨5, 0⟩ ∧ t.result = 0
    | _ => t.status = s.status ∧ t.result = s.result

/-- R243: a command that ends with ERR nonzero leaves the packet register, PTR and every byte of host memory
unchanged; FROM and WRITE detect their errors before any host access, so they complete with them whatever the
platform admits. -/
def Obligations.ErrorChangesOnlyStatusAndResult : Prop :=
  (∀ (i : Instr) (s t : State), (performed i).isCommand = true → exec i s = .next t → t.status.err ≠ 0 →
    t.pkt = s.pkt ∧ t.ptr = s.ptr ∧ HostMemKept s t ∧ HostSideKept s t) ∧
  (∀ (c : Byte) (n : Half) (s : State), 255 < n.toNat → ∃ t, exec (.cmdFrom c n) s = .next t ∧ t.status.err = 1) ∧
  (∀ (cap : Half) (s : State), cap.toNat < s.pkt.len.toNat + 6 →
    ∃ t, exec (.cmdWrite cap) s = .next t ∧ t.status.err = 2)

/-! ### The checksum engine -/

/-- R160, R163: the checksum domain, in which no payload byte at or beyond the length enters, and the checksum over
it. -/
def Obligations.ChecksumDomain : Prop :=
  ∀ p : Packet,
    p.domain = [0xAA, 0x55, p.cmd, p.len] ++ (List.range p.len.toNat).map p.byte ∧
    p.domain.length = 4 + p.len.toNat ∧
    p.checksum = crc16 p.domain ∧
    ∀ q : Packet, q.cmd = p.cmd → q.len = p.len → (∀ i, i < p.len.toNat → q.byte i = p.byte i) →
      q.checksum = p.checksum

/-- R165: the running register over AA 55 01 03 AA AA AA, byte by byte, and the checksum 0x74FE. -/
def Obligations.WorkedChecksum : Prop :=
  crcStep 0xFFFF 0xAA = 0x3F3F ∧ crcStep 0x3F3F 0x55 = 0x2FBF ∧ crcStep 0x2FBF 0x01 = 0x70AF ∧
  crcStep 0x70AF 0x03 = 0x7D70 ∧ crcStep 0x7D70 0xAA = 0x9BFC ∧ crcStep 0x9BFC 0xAA = 0x3E1B ∧
  crcStep 0x3E1B 0xAA = 0x74FE ∧ crc16 [0xAA, 0x55, 0x01, 0x03, 0xAA, 0xAA, 0xAA] = 0x74FE

/-- R162: one byte step is linear over GF(2), a consequence of its shifts and XORs. -/
def Obligations.ByteStepIsLinear : Prop :=
  ∀ (r r' : Half) (b b' : Byte), crcStep (r ^^^ r') (b ^^^ b') = crcStep r b ^^^ crcStep r' b'

/-- R160, its derived sentence, and R166, which the spec gives from general knowledge: the checksum domain is the
first `4 + len` bytes of the frame, and the residue of a frame whose stored checksum is the packet's is 0x0000. -/
def Obligations.FrameResidueIsZero : Prop :=
  ∀ p : Packet, p.domain = p.frame.take (4 + p.len.toNat) ∧ (p.csum = p.checksum → crc16 p.frame = 0x0000)

/-- R162, R180: a packet that validates no longer does after one byte of its command or payload has changed.
R181 (c) promises no detection; this is what the loop of R162 computes. -/
def Obligations.OneCorruptedByteIsDetected : Prop :=
  ∀ (s u : State), (∃ t, exec .cmdValidate s = .next t ∧ t.status.err = 0) → OneByteCorrupted s.pkt u.pkt →
    exec .cmdValidate u = .next (u.withOutcome ⟨3, 0⟩ 0x0000)

/-! ### Commands in sequence -/

/-- R123 (a), R181 (a), R164: a constructed packet validates, and CALC gives its stored checksum. -/
def Obligations.ConstructedPacketValidates : Prop :=
  ∀ (c : Byte) (n : Half) (s t : State), exec (.cmdFrom c n) s = .next t → t.status.err = 0 →
    exec .cmdValidate t = .next (t.withOutcome ⟨0, 0⟩ 0x0000) ∧
    exec .cmdCalc t = .next (t.withOutcome ⟨0, 0⟩ t.pkt.csum)

/-- R181 (b), R223: right after a successful FROM, any write to PKT_CSUM that changes its value makes VALIDATE fail. -/
def Obligations.ChangedChecksumIsDetected : Prop :=
  ∀ (c : Byte) (n : Half) (s t : State) (v : Word), exec (.cmdFrom c n) s = .next t → t.status.err = 0 →
    v.extractLsb' 0 16 ≠ t.pkt.csum →
    ∃ u, exec (.wrPktCsum v) t = .next u ∧ exec .cmdValidate u = .next (u.withOutcome ⟨3, 0⟩ 0x0000)

/-- R123 (b): the same command byte, count and source bytes give the same packet, whatever the state before. -/
def Obligations.ConstructionIsDeterministic : Prop :=
  ∀ (c : Byte) (n : Half) (s u s' u' : State), (∀ i, i < n.toNat → regionByte u i = regionByte s i) →
    exec (.cmdFrom c n) s = .next s' → s'.status.err = 0 →
    exec (.cmdFrom c n) u = .next u' → u'.status.err = 0 → u'.pkt = s'.pkt

/-- R142 (a), (b): after FROM of `n` source bytes, WRITE to `dst` leaves there AA 55 c n, then those bytes, then the
checksum, low byte first, and RESULT is `n + 6`. -/
def Obligations.ConstructedFrameIsWritten : Prop :=
  ∀ (c : Byte) (n cap : Half) (dst : Word) (s t u : State), exec (.cmdFrom c n) s = .next t → t.status.err = 0 →
    exec (.cmdWrite cap) (t.withPtr dst) = .next u → u.status.err = 0 →
    hostByte u (ea dst 0) = 0xAA ∧ hostByte u (ea dst 1) = 0x55 ∧ hostByte u (ea dst 2) = c ∧
    (hostByte u (ea dst 3)).toNat = n.toNat ∧
    (∀ i, i < n.toNat → hostByte u (ea dst (4 + i)) = regionByte s i) ∧
    hostByte u (ea dst (5 + n.toNat)) ++ hostByte u (ea dst (4 + n.toNat)) =
      crc16 ([0xAA, 0x55, c, n.extractLsb' 0 8] ++ (List.range n.toNat).map (regionByte s)) ∧
    u.result.toNat = n.toNat + 6

/-- R202: what WRITE has put at an address, PARSE of enough bytes from that address loads back: command, length,
payload below the length, and stored checksum; bytes at or beyond the length become 0x00, and VALIDATE then gives
the status it gave for the packet written. -/
def Obligations.ParseInvertsWrite : Prop :=
  ∀ (cap m : Half) (s t u : State), exec (.cmdWrite cap) s = .next t → t.status.err = 0 →
    u.ptr = s.ptr → (∀ i, i < s.pkt.len.toNat + 6 → hostByte u (ea s.ptr i) = hostByte t (ea s.ptr i)) →
    RegionAdmitted u .read (s.pkt.len.toNat + 6) → s.pkt.len.toNat + 6 ≤ m.toNat →
    ∃ v, exec (.cmdParse m) u = .next v ∧
      v.pkt.cmd = s.pkt.cmd ∧ v.pkt.len = s.pkt.len ∧ v.pkt.csum = s.pkt.csum ∧
      (∀ i, i < 255 → v.pkt.byte i = if i < s.pkt.len.toNat then s.pkt.byte i else 0x00) ∧
      v.status.word = 0x00000000 ∧ v.result.toNat = s.pkt.len.toNat + 6 ∧
      v.ptr = u.ptr ∧ HostMemKept u v ∧ HostSideKept u v ∧
      ∃ x y, exec .cmdValidate v = .next x ∧ exec .cmdValidate s = .next y ∧ x.status = y.status

/-- R274: after a FROM or PARSE that ended with an error, VALIDATE and WRITE do exactly what they would have done
without it: they work on the previous packet. -/
def Obligations.StalePacketAfterAnError : Prop :=
  ∀ (i : Instr) (s t : State), (∃ c n, i = .cmdFrom c n) ∨ (∃ m, i = .cmdParse m) →
    exec i s = .next t → t.status.err ≠ 0 →
    exec .cmdValidate t = exec .cmdValidate s ∧
    ∀ (cap : Half) (u : State), exec (.cmdWrite cap) s = .next u → exec (.cmdWrite cap) t = .next u

/-- R26: payload bytes at or beyond the length are neither transmitted nor checksummed: WRITE, VALIDATE and CALC do
the same for two packets that differ only in them. -/
def Obligations.BytesBeyondLengthAreNotUsed : Prop :=
  ∀ (s : State) (q : Packet) (cap : Half), SameTransmitted s.pkt q →
    exec .cmdCalc (s.withPkt q) = mapResult (·.withPkt q) (exec .cmdCalc s) ∧
    exec .cmdValidate (s.withPkt q) = mapResult (·.withPkt q) (exec .cmdValidate s) ∧
    exec (.cmdWrite cap) (s.withPkt q) = mapResult (·.withPkt q) (exec (.cmdWrite cap) s)

/-! ### Register accesses -/

/-- R220, R26, R228: what a read of each register returns; it changes nothing else. -/
def Obligations.RegisterReadsReturn : Prop :=
  ∀ s : State,
    exec .rdCtrl s = .next (s.withHostData 0x00000000) ∧
    exec .rdPtr s = .next (s.withHostData s.ptr) ∧
    exec .rdStatus s = .next (s.withHostData (0#26 ++ s.status.fdet ++ s.status.err)) ∧
    exec .rdResult s = .next (s.withHostData (0#16 ++ s.result)) ∧
    exec .rdPktSync s = .next (s.withHostData 0x000055AA) ∧
    exec .rdPktCmd s = .next (s.withHostData (0#24 ++ s.pkt.cmd)) ∧
    exec .rdPktLen s = .next (s.withHostData (0#24 ++ s.pkt.len)) ∧
    exec .rdPktCsum s = .next (s.withHostData (0#16 ++ s.pkt.csum)) ∧
    (∀ off, exec (.rdReserved off) s = .next (s.withHostData 0x00000000)) ∧
    (∀ k : BitVec 6, exec (.rdPayload k) s = .next (s.withHostData
      (s.pkt.byte (4 * k.toNat + 3) ++ s.pkt.byte (4 * k.toNat + 2) ++ s.pkt.byte (4 * k.toNat + 1)
        ++ s.pkt.byte (4 * k.toNat)))) ∧
    s.pkt.byte 255 = 0x00

/-- R227: WR PTR sets all 32 bits of PTR and nothing else; any value is legal. -/
def Obligations.PtrWriteSetsPtr : Prop :=
  ∀ (v : Word) (s : State), exec (.wrPtr v) s = .next (s.withPtr v)

/-- R222, R223: WR PKT_CMD takes `v[7:0]` and WR PKT_CSUM takes `v[15:0]`; nothing else changes, and the checksum is
not recomputed. -/
def Obligations.CommandAndChecksumWrites : Prop :=
  ∀ (v : Word) (s : State),
    (∃ t, exec (.wrPktCmd v) s = .next t ∧ t.pkt.cmd.toNat = v.toNat % 2 ^ 8 ∧ t.pkt.len = s.pkt.len ∧
      t.pkt.payload = s.pkt.payload ∧ t.pkt.csum = s.pkt.csum ∧ t.ptr = s.ptr ∧ t.status = s.status ∧
      t.result = s.result ∧ HostMemKept s t ∧ HostSideKept s t) ∧
    (∃ t, exec (.wrPktCsum v) s = .next t ∧ t.pkt.csum.toNat = v.toNat % 2 ^ 16 ∧ t.pkt.len = s.pkt.len ∧
      t.pkt.payload = s.pkt.payload ∧ t.pkt.cmd = s.pkt.cmd ∧ t.ptr = s.ptr ∧ t.status = s.status ∧
      t.result = s.result ∧ HostMemKept s t ∧ HostSideKept s t)

/-- R224: WR PAYLOAD[k] sets the four bytes `4k .. 4k+3`, the last only where it exists, and nothing else. -/
def Obligations.PayloadWriteSetsFourBytes : Prop :=
  ∀ (k : BitVec 6) (v : Word) (s : State),
    ∃ t, exec (.wrPayload k v) s = .next t ∧
      (∀ i, i < 255 → t.pkt.byte i =
        if i = 4 * k.toNat then v.extractLsb' 0 8
        else if i = 4 * k.toNat + 1 then v.extractLsb' 8 8
        else if i = 4 * k.toNat + 2 then v.extractLsb' 16 8
        else if i = 4 * k.toNat + 3 then v.extractLsb' 24 8
        else s.pkt.byte i) ∧
      t.pkt.cmd = s.pkt.cmd ∧ t.pkt.len = s.pkt.len ∧ t.pkt.csum = s.pkt.csum ∧ t.ptr = s.ptr ∧
      t.status = s.status ∧ t.result = s.result ∧ HostMemKept s t ∧ HostSideKept s t

/-- R225, R226: writes to STATUS, RESULT, PKT_SYNC, PKT_LEN and the reserved offsets are ignored, and a reserved
offset reads 0. -/
def Obligations.ReadOnlyWritesAreIgnored : Prop :=
  ∀ (v : Word) (off : BitVec 9) (s : State),
    exec (.wrStatus v) s = .next s ∧ exec (.wrResult v) s = .next s ∧ exec (.wrPktSync v) s = .next s ∧
    exec (.wrPktLen v) s = .next s ∧ exec (.wrReserved off v) s = .next s ∧
    exec (.rdReserved off) s = .next (s.withHostData 0x00000000)

/-- R63, R221: an admitted write at an offset other than CTRL's changes only the register it names: every other
register reads as before. -/
def Obligations.WriteChangesOnlyItsRegister : Prop :=
  ∀ (off off' : BitVec 9) (v : Word) (s : State), off.toNat % 4 = 0 → off ≠ 0 → off' ≠ off →
    ∃ t, hostRegWrite s off v = .next t ∧ registerValue t off' = registerValue s off'

/-- R21, R22: after an admitted write other than to CTRL, the register reads the written value in its writable bits
and its former value in the others. -/
def Obligations.RegisterReadsBackWhatWasWritten : Prop :=
  ∀ (off : BitVec 9) (v old : Word) (s : State), off.toNat % 4 = 0 → off ≠ 0 → registerValue s off = some old →
    ∃ t, hostRegWrite s off v = .next t ∧
      registerValue t off = some ((v &&& writableBits off) ||| (old &&& ~~~ writableBits off))

/-! ### The whole machine -/

/-- The invariant of a good state (R30, R241, and canonical host memory) is kept by every step. -/
def Obligations.EveryStepKeepsTheInvariant : Prop :=
  ∀ s t : State, Inv s → step s = .next t → Inv t

/-- The invariant of a good state holds at reset. -/
def Obligations.ResetIsAGoodState : Prop := Inv State.reset

/-- R29: no operation but WR PTR writes PTR; no command does. -/
def Obligations.OnlyPtrWriteChangesPtr : Prop :=
  ∀ (i : Instr) (s t : State), exec i s = .next t → t.ptr ≠ s.ptr → ∃ v, i = .wrPtr v

/-- R25: PKT_LEN changes only in a step that resets the block or issues NEW, FROM or PARSE through CTRL. -/
def Obligations.LengthIsSetOnlyByConstruction : Prop :=
  ∀ s t : State, step s = .next t → t.pkt.len ≠ s.pkt.len →
    (∃ rest, s.inputs = .reset :: rest) ∨
    ∃ a rest w, s.inputs = .access a :: rest ∧ decodeAccess s.platform a = .ok (.wrCtrl w) ∧
      (decodeCommand w = .cmdNew ∨ (∃ c n, decodeCommand w = .cmdFrom c n) ∨ ∃ m, decodeCommand w = .cmdParse m)

/-- R65: host memory changes only in a step in which the host stores a byte, or issues WRITE through CTRL; and then
only in the bytes stored or in those of the frame's region. -/
def Obligations.HostMemoryIsWrittenOnlyByWrite : Prop :=
  ∀ (s t : State) (x : Word), step s = .next t → hostByte t x ≠ hostByte s x →
    (∃ b rest, s.inputs = .store x b :: rest) ∨
    ∃ a rest w cap, s.inputs = .access a :: rest ∧ decodeAccess s.platform a = .ok (.wrCtrl w) ∧
      decodeCommand w = .cmdWrite cap ∧ s.pkt.len.toNat + 6 ≤ cap.toNat ∧
      ∃ i, i < s.pkt.len.toNat + 6 ∧ x = ea s.ptr i

/-- R70 (1), R5: a step takes exactly the host's first event and no step changes the platform; where the host does
nothing, nothing changes (log entry 5: the model's choice). -/
def Obligations.StepTakesOneHostEvent : Prop :=
  (∀ s t : State, step s = .next t → t.inputs = s.inputs.tail ∧ t.platform = s.platform) ∧
  ∀ s : State, s.inputs = [] → step s = .next s

/-- R5, R61: no step depends on `HOST_BUS_ENDIAN`. -/
def Obligations.BusEndiannessIsNotUsed : Prop :=
  ∀ (s : State) (e : Endian), step (s.withEndian e) = mapResult (·.withEndian e) (step s)
end

