-- ==== Sys2Proof/Laws/Decode.lean ====
section
/-! SUPPORT. The fields of a command word and the words made of them, the decision tree of R96 over a meaning, and the
offset of an access at `REG_BASE`. -/

namespace Sys2Proof

/-! ### The fields of a command word (R91, R92, R100) -/

@[simp] theorem cwOp_cwWord (op a : Byte) (b : Half) : cwOp (cwWord op a b) = op := by
  apply BitVec.eq_of_getLsbD_eq
  intro i hi
  simp [cwOp, cwWord, hi, show i < 16 by omega, show i < 32 by omega]

@[simp] theorem cwA_cwWord (op a : Byte) (b : Half) : cwA (cwWord op a b) = a := by
  apply BitVec.eq_of_getLsbD_eq
  intro i hi
  simp [cwA, cwWord, hi, show 8 + i < 16 by omega, show 8 + i < 32 by omega]

@[simp] theorem cwB_cwWord (op a : Byte) (b : Half) : cwB (cwWord op a b) = b := by
  apply BitVec.eq_of_getLsbD_eq
  intro i hi
  simp [cwB, cwWord, hi, show 16 + i < 32 by omega, BitVec.getLsbD_of_ge op (16 + i) (by omega),
    BitVec.getLsbD_of_ge a (16 + i - 8) (by omega)]

/-- A command word is its three fields. -/
theorem cwWord_fields (w : Word) : cwWord (cwOp w) (cwA w) (cwB w) = w := by
  apply BitVec.eq_of_getLsbD_eq
  intro i hi
  simp only [cwWord, cwOp, cwA, cwB, BitVec.getLsbD_or, BitVec.getLsbD_shiftLeft, BitVec.getLsbD_setWidth,
    BitVec.getLsbD_extractLsb']
  by_cases h8 : i < 8
  · simp [hi, h8, show i < 16 by omega]
  · by_cases h16 : i < 16
    · simp [hi, h8, h16, show i - 8 < 8 by omega, show 8 + (i - 8) = i by omega, show i - 8 < 32 by omega]
    · simp [hi, h8, h16, show ¬ i - 8 < 8 by omega, show i - 16 < 16 by omega, show 16 + (i - 16) = i by omega,
        show i - 16 < 32 by omega]

/-- A word is fixed by its three fields. -/
theorem cwWord_ext {w x : Word} (h0 : cwOp w = cwOp x) (h1 : cwA w = cwA x) (h2 : cwB w = cwB x) : w = x := by
  rw [← cwWord_fields w, h0, h1, h2, cwWord_fields]

/-! ### The decision tree (R96) -/

/-- The tree over results mapped by `f` is `f` of the tree. -/
theorem apply_decodeCwWith {α β : Type} (f : α → β) (a : α) (b : Byte → Half → α) (c : Half → α) (d : α)
    (e : Half → α) (g : α) (i : Word → α) (w : Word) :
    f (decodeCwWith a b c d e g i w) =
      decodeCwWith (f a) (fun x n => f (b x n)) (fun n => f (c n)) (f d) (fun n => f (e n)) (f g)
        (fun x => f (i x)) w := by
  unfold decodeCwWith
  split_ifs <;> rfl

/-- What a command word can decode to, with what each says of the word. -/
theorem decodeCommand_cases (w : Word) :
    (decodeCommand w = .cmdNew ∧ w = cwWord 0x01 0 0) ∨
    (decodeCommand w = .cmdFrom (cwA w) (cwB w) ∧ w = cwWord 0x02 (cwA w) (cwB w)) ∨
    (decodeCommand w = .cmdWrite (cwB w) ∧ w = cwWord 0x03 0 (cwB w)) ∨
    (decodeCommand w = .cmdValidate ∧ w = cwWord 0x04 0 0) ∨
    (decodeCommand w = .cmdParse (cwB w) ∧ w = cwWord 0x05 0 (cwB w)) ∨
    (decodeCommand w = .cmdCalc ∧ w = cwWord 0x06 0 0) ∨
    (decodeCommand w = .cmdIllegal w ∧ isIllegalWord w = true) := by
  have hw := cwWord_fields w
  unfold decodeCommand decodeCwWith
  split_ifs with h1 h2 h3 h4 h5 h6
  · rw [h1.1, h1.2.1, h1.2.2] at hw; exact .inl ⟨rfl, hw.symm⟩
  · rw [h2] at hw; exact .inr (.inl ⟨rfl, hw.symm⟩)
  · rw [h3.1, h3.2] at hw; exact .inr (.inr (.inl ⟨rfl, hw.symm⟩))
  · rw [h4.1, h4.2.1, h4.2.2] at hw; exact .inr (.inr (.inr (.inl ⟨rfl, hw.symm⟩)))
  · rw [h5.1, h5.2] at hw; exact .inr (.inr (.inr (.inr (.inl ⟨rfl, hw.symm⟩))))
  · rw [h6.1, h6.2.1, h6.2.2] at hw; exact .inr (.inr (.inr (.inr (.inr (.inl ⟨rfl, hw.symm⟩)))))
  · refine .inr (.inr (.inr (.inr (.inr (.inr ⟨rfl, ?_⟩)))))
    have hle : ∀ x : Byte, ¬ 0x07#8 ≤ x → x = 0 ∨ x = 1 ∨ x = 2 ∨ x = 3 ∨ x = 4 ∨ x = 5 ∨ x = 6 := by decide
    simp only [cwOp, cwA, cwB] at h1 h2 h3 h4 h5 h6
    simp only [isIllegalWord, Bool.or_eq_true, Bool.and_eq_true, beq_iff_eq, bne_iff_ne, decide_eq_true_eq]
    by_contra hn
    simp only [not_or, not_and, ne_eq, not_not] at hn
    obtain ⟨⟨⟨h0, h7⟩, ha⟩, hb⟩ := hn
    rcases hle _ h7 with h | h | h | h | h | h | h
    · exact h0 h
    · exact h1 ⟨h, ha (.inl (.inl h))⟩
    · exact h2 h
    · exact h3 ⟨h, hb (.inl h)⟩
    · exact h4 ⟨h, ha (.inl (.inr h))⟩
    · exact h5 ⟨h, hb (.inr h)⟩
    · exact h6 ⟨h, ha (.inr h)⟩

theorem isIllegalWord_iff (w : Word) : isIllegalWord w = true ↔
    (cwOp w = 0x00 ∨ 0x07#8 ≤ cwOp w) ∨
      ((cwOp w = 0x01 ∨ cwOp w = 0x04 ∨ cwOp w = 0x06) ∧ (cwA w ≠ 0 ∨ cwB w ≠ 0)) ∨
      ((cwOp w = 0x03 ∨ cwOp w = 0x05) ∧ cwA w ≠ 0) := by
  simp only [isIllegalWord, cwOp, cwA, cwB, Bool.or_eq_true, Bool.and_eq_true, beq_iff_eq, bne_iff_ne,
    decide_eq_true_eq, or_assoc]
  rfl

/-- An illegal word (R97) decodes to ILLEGAL. -/
theorem decodeCommand_of_isIllegalWord {w : Word} (h : isIllegalWord w = true) :
    decodeCommand w = .cmdIllegal w := by
  rw [isIllegalWord_iff] at h
  generalize ha : cwA w = a at h
  generalize hb : cwB w = b at h
  generalize ho : cwOp w = op at h
  unfold decodeCommand decodeCwWith
  rw [ha, hb, ho]
  rcases h with (rfl | h) | ⟨rfl | rfl | rfl, h⟩ | ⟨rfl | rfl, h⟩
  · simp
  · have : ∀ x : Byte, 0x07#8 ≤ x → x ≠ 1 ∧ x ≠ 2 ∧ x ≠ 3 ∧ x ≠ 4 ∧ x ≠ 5 ∧ x ≠ 6 := by decide
    obtain ⟨h1, h2, h3, h4, h5, h6⟩ := this _ h
    rw [if_neg (h1 ·.1), if_neg h2, if_neg (h3 ·.1), if_neg (h4 ·.1), if_neg (h5 ·.1), if_neg (h6 ·.1)]
  all_goals simp_all <;> tauto

namespace Machine

/-- R95: a write to CTRL is the command its word decodes to. -/
theorem exec_wrCtrl (w : Word) (s : State) : exec (.wrCtrl w) s = exec (decodeCommand w) s := by
  unfold decodeCommand
  rw [apply_decodeCwWith fun i => exec i s]
  rfl

/-- Every meaning is that of the operation performed. -/
theorem exec_performed (i : Instr) (s : State) : exec (performed i) s = exec i s := by
  cases i <;> first | rfl | exact (exec_wrCtrl _ s).symm

end Machine

/-! ### Register accesses -/

/-- `REG_BASE` is aligned to 0x200, so an offset below 0x200 from it is the offset of the access (R62). -/
theorem admitAccess_access (p : Platform) (dir : Dir) (off : BitVec 9) (v : Word)
    (h : off.extractLsb' 0 2 = 0#2) :
    admitAccess p ⟨dir, 32, p.regBase + off.setWidth 32, v⟩ = .ok off := by
  have hoff : (p.regBase + off.setWidth 32) - p.regBase = off.setWidth 32 := by
    rw [BitVec.add_comm, BitVec.add_sub_cancel]
  have hlow : (off.setWidth 32).extractLsb' 0 2 = 0#2 := by
    rw [← h]
    apply BitVec.eq_of_getLsbD_eq
    intro i hi
    simp [hi, show i < 32 by omega]
  have hlt : ¬ (0x200#32 ≤ off.setWidth 32) := by
    have := off.isLt
    simp only [BitVec.le_def, BitVec.toNat_setWidth]
    simp
    omega
  have hw : (off.setWidth 32).setWidth 9 = off := by
    apply BitVec.eq_of_getLsbD_eq
    intro i hi
    simp [hi]
  simp [admitAccess, hoff, hlow, hlt, hw]

/-- What is decoded at an aligned offset is an operation. -/
theorem decodeBus_aligned (dir : Dir) {off : BitVec 9} (h : off.extractLsb' 0 2 = 0#2) (v : Word) :
    ∃ i, decodeBus dir off v = .ok i := by
  unfold decodeBus
  rw [if_neg (by simpa using h)]
  split_ifs <;> exact ⟨_, rfl⟩

theorem aligned_iff (off : BitVec 9) : off.extractLsb' 0 2 = 0#2 ↔ off.toNat % 4 = 0 := by
  rw [← BitVec.toNat_inj]
  simp [BitVec.extractLsb'_toNat]

theorem aligned_iff_word (x : Word) : x.extractLsb' 0 2 = 0#2 ↔ x.toNat % 4 = 0 := by
  rw [← BitVec.toNat_inj]
  simp [BitVec.extractLsb'_toNat]

end Sys2Proof
end

