-- ==== Sys2Proof/Laws/State.lean ====
section
/-! SUPPORT. What each update of a state does to each field: one lemma per field per update. -/

namespace Sys2Proof.Machine.State

variable (s : State)

/-! ### `withPkt` -/

@[simp] theorem pkt_withPkt (p : Packet) : (s.withPkt p).pkt = p := rfl
@[simp] theorem ptr_withPkt (p : Packet) : (s.withPkt p).ptr = s.ptr := rfl
@[simp] theorem status_withPkt (p : Packet) : (s.withPkt p).status = s.status := rfl
@[simp] theorem result_withPkt (p : Packet) : (s.withPkt p).result = s.result := rfl
@[simp] theorem mem_withPkt (p : Packet) : (s.withPkt p).mem = s.mem := rfl
@[simp] theorem platform_withPkt (p : Packet) : (s.withPkt p).platform = s.platform := rfl
@[simp] theorem inputs_withPkt (p : Packet) : (s.withPkt p).inputs = s.inputs := rfl
@[simp] theorem hostData_withPkt (p : Packet) : (s.withPkt p).hostData = s.hostData := rfl

/-! ### `withPtr` -/

@[simp] theorem pkt_withPtr (v : Word) : (s.withPtr v).pkt = s.pkt := rfl
@[simp] theorem ptr_withPtr (v : Word) : (s.withPtr v).ptr = v := rfl
@[simp] theorem status_withPtr (v : Word) : (s.withPtr v).status = s.status := rfl
@[simp] theorem result_withPtr (v : Word) : (s.withPtr v).result = s.result := rfl
@[simp] theorem mem_withPtr (v : Word) : (s.withPtr v).mem = s.mem := rfl
@[simp] theorem platform_withPtr (v : Word) : (s.withPtr v).platform = s.platform := rfl
@[simp] theorem inputs_withPtr (v : Word) : (s.withPtr v).inputs = s.inputs := rfl
@[simp] theorem hostData_withPtr (v : Word) : (s.withPtr v).hostData = s.hostData := rfl

/-! ### `withOutcome` -/

@[simp] theorem pkt_withOutcome (st : Status) (r : Half) : (s.withOutcome st r).pkt = s.pkt := rfl
@[simp] theorem ptr_withOutcome (st : Status) (r : Half) : (s.withOutcome st r).ptr = s.ptr := rfl
@[simp] theorem status_withOutcome (st : Status) (r : Half) : (s.withOutcome st r).status = st := rfl
@[simp] theorem result_withOutcome (st : Status) (r : Half) : (s.withOutcome st r).result = r := rfl
@[simp] theorem mem_withOutcome (st : Status) (r : Half) : (s.withOutcome st r).mem = s.mem := rfl
@[simp] theorem platform_withOutcome (st : Status) (r : Half) : (s.withOutcome st r).platform = s.platform := rfl
@[simp] theorem inputs_withOutcome (st : Status) (r : Half) : (s.withOutcome st r).inputs = s.inputs := rfl
@[simp] theorem hostData_withOutcome (st : Status) (r : Half) : (s.withOutcome st r).hostData = s.hostData := rfl

/-! ### `withMem` -/

@[simp] theorem pkt_withMem (m : Memory) : (s.withMem m).pkt = s.pkt := rfl
@[simp] theorem ptr_withMem (m : Memory) : (s.withMem m).ptr = s.ptr := rfl
@[simp] theorem status_withMem (m : Memory) : (s.withMem m).status = s.status := rfl
@[simp] theorem result_withMem (m : Memory) : (s.withMem m).result = s.result := rfl
@[simp] theorem mem_withMem (m : Memory) : (s.withMem m).mem = m := rfl
@[simp] theorem platform_withMem (m : Memory) : (s.withMem m).platform = s.platform := rfl
@[simp] theorem inputs_withMem (m : Memory) : (s.withMem m).inputs = s.inputs := rfl
@[simp] theorem hostData_withMem (m : Memory) : (s.withMem m).hostData = s.hostData := rfl

/-! ### `withHostData` -/

@[simp] theorem pkt_withHostData (v : Word) : (s.withHostData v).pkt = s.pkt := rfl
@[simp] theorem ptr_withHostData (v : Word) : (s.withHostData v).ptr = s.ptr := rfl
@[simp] theorem status_withHostData (v : Word) : (s.withHostData v).status = s.status := rfl
@[simp] theorem result_withHostData (v : Word) : (s.withHostData v).result = s.result := rfl
@[simp] theorem mem_withHostData (v : Word) : (s.withHostData v).mem = s.mem := rfl
@[simp] theorem platform_withHostData (v : Word) : (s.withHostData v).platform = s.platform := rfl
@[simp] theorem inputs_withHostData (v : Word) : (s.withHostData v).inputs = s.inputs := rfl
@[simp] theorem hostData_withHostData (v : Word) : (s.withHostData v).hostData = some v := rfl

/-! ### `withInputs` -/

@[simp] theorem pkt_withInputs (es : List HostEvent) : (s.withInputs es).pkt = s.pkt := rfl
@[simp] theorem ptr_withInputs (es : List HostEvent) : (s.withInputs es).ptr = s.ptr := rfl
@[simp] theorem status_withInputs (es : List HostEvent) : (s.withInputs es).status = s.status := rfl
@[simp] theorem result_withInputs (es : List HostEvent) : (s.withInputs es).result = s.result := rfl
@[simp] theorem mem_withInputs (es : List HostEvent) : (s.withInputs es).mem = s.mem := rfl
@[simp] theorem platform_withInputs (es : List HostEvent) : (s.withInputs es).platform = s.platform := rfl
@[simp] theorem inputs_withInputs (es : List HostEvent) : (s.withInputs es).inputs = es := rfl
@[simp] theorem hostData_withInputs (es : List HostEvent) : (s.withInputs es).hostData = s.hostData := rfl

/-! ### `withPlatform` -/

@[simp] theorem pkt_withPlatform (p : Platform) : (s.withPlatform p).pkt = s.pkt := rfl
@[simp] theorem ptr_withPlatform (p : Platform) : (s.withPlatform p).ptr = s.ptr := rfl
@[simp] theorem status_withPlatform (p : Platform) : (s.withPlatform p).status = s.status := rfl
@[simp] theorem result_withPlatform (p : Platform) : (s.withPlatform p).result = s.result := rfl
@[simp] theorem mem_withPlatform (p : Platform) : (s.withPlatform p).mem = s.mem := rfl
@[simp] theorem platform_withPlatform (p : Platform) : (s.withPlatform p).platform = p := rfl
@[simp] theorem inputs_withPlatform (p : Platform) : (s.withPlatform p).inputs = s.inputs := rfl
@[simp] theorem hostData_withPlatform (p : Platform) : (s.withPlatform p).hostData = s.hostData := rfl

end Sys2Proof.Machine.State
end

