-- ==== Sys2Proof/Laws/Memory.lean ====
section
/-! SUPPORT. The laws of host memory: a load after a store, that every store keeps the canonical form, and that the
canonical form makes equal memories equal lists. -/

namespace Sys2Proof.Machine

@[simp] theorem Memory.get_nil (a : Nat) : Memory.get [] a = Memory.unlisted := rfl

theorem Memory.get_cons (k : Nat) (b : Byte) (rest : Memory) (a : Nat) :
    Memory.get ((k, b) :: rest) a = if k = a then b else Memory.get rest a := rfl

theorem Memory.clear_cons (k : Nat) (c : Byte) (rest : Memory) (a : Nat) :
    Memory.clear ((k, c) :: rest) a = if k = a then rest.clear a else (k, c) :: rest.clear a := by
  by_cases h : k = a <;> simp [Memory.clear, h]

/-! ### Load after store, in any memory -/

theorem Memory.get_clear_same (m : Memory) (a : Nat) : (m.clear a).get a = Memory.unlisted := by
  induction m with
  | nil => rfl
  | cons c rest ih =>
    rw [Memory.clear_cons]
    split
    · exact ih
    · next h => rw [Memory.get_cons, if_neg h, ih]

theorem Memory.get_clear_other (m : Memory) {a x : Nat} (h : x ≠ a) : (m.clear a).get x = m.get x := by
  induction m with
  | nil => rfl
  | cons c rest ih =>
    rw [Memory.clear_cons, Memory.get_cons]
    split
    · next hk => rw [ih, if_neg (by omega)]
    · rw [Memory.get_cons, ih]

theorem Memory.get_insert_other (m : Memory) {a x : Nat} (b : Byte) (h : x ≠ a) :
    (m.insert a b).get x = m.get x := by
  induction m with
  | nil => simp [Memory.insert, Memory.get_cons, Ne.symm h]
  | cons c rest ih =>
    obtain ⟨k, d⟩ := c
    simp only [Memory.insert]
    split
    · simp only [Memory.get_cons, ih]
    · rw [Memory.get_cons, if_neg (Ne.symm h)]

theorem Memory.get_insert_same (m : Memory) (a : Nat) (b : Byte) : ((m.clear a).insert a b).get a = b := by
  induction m with
  | nil => simp [Memory.clear, Memory.insert, Memory.get_cons]
  | cons c rest ih =>
    rw [Memory.clear_cons]
    split
    · exact ih
    · next hk =>
      simp only [Memory.insert]
      split
      · rw [Memory.get_cons, if_neg hk, ih]
      · rw [Memory.get_cons, if_pos rfl]

/-- A load of the byte stored. -/
theorem Memory.get_set_same (m : Memory) (a : Nat) (b : Byte) : (m.set a b).get a = b := by
  unfold Memory.set
  split
  · next h => rw [Memory.get_clear_same, h]
  · exact Memory.get_insert_same m a b

/-- A load of any other byte. -/
theorem Memory.get_set_other (m : Memory) {a x : Nat} (b : Byte) (h : x ≠ a) :
    (m.set a b).get x = m.get x := by
  unfold Memory.set
  split
  · exact Memory.get_clear_other m h
  · rw [Memory.get_insert_other _ b h, Memory.get_clear_other m h]

/-! ### The canonical form -/

theorem Memory.wfFrom_cons (lo k : Nat) (b : Byte) (rest : Memory) :
    Memory.wfFrom lo ((k, b) :: rest) = true ↔
      lo ≤ k ∧ k < 2 ^ 32 ∧ b ≠ Memory.unlisted ∧ Memory.wfFrom (k + 1) rest = true := by
  simp [Memory.wfFrom, and_assoc]

theorem Memory.wfFrom_mono {lo lo' : Nat} {m : Memory} (h : Memory.wfFrom lo m = true) (hl : lo' ≤ lo) :
    Memory.wfFrom lo' m = true := by
  cases m with
  | nil => rfl
  | cons c rest =>
    rw [Memory.wfFrom_cons] at h ⊢
    exact ⟨by omega, h.2⟩

theorem Memory.wfFrom_clear {lo : Nat} {m : Memory} (h : Memory.wfFrom lo m = true) (a : Nat) :
    Memory.wfFrom lo (m.clear a) = true := by
  induction m generalizing lo with
  | nil => rfl
  | cons c rest ih =>
    rw [Memory.wfFrom_cons] at h
    rw [Memory.clear_cons]
    split
    · exact Memory.wfFrom_mono (ih h.2.2.2) (by omega)
    · rw [Memory.wfFrom_cons]
      exact ⟨h.1, h.2.1, h.2.2.1, ih h.2.2.2⟩

theorem Memory.wfFrom_insert {lo a : Nat} {b : Byte} {m : Memory} (h : Memory.wfFrom lo m = true)
    (hm : ∀ c ∈ m, c.1 ≠ a) (hl : lo ≤ a) (ha : a < 2 ^ 32) (hb : b ≠ Memory.unlisted) :
    Memory.wfFrom lo (m.insert a b) = true := by
  induction m generalizing lo with
  | nil => rw [Memory.insert, Memory.wfFrom_cons]; exact ⟨hl, ha, hb, rfl⟩
  | cons c rest ih =>
    obtain ⟨k, d⟩ := c
    rw [Memory.wfFrom_cons] at h
    have hk : k ≠ a := hm (k, d) (by simp)
    simp only [Memory.insert]
    split
    · rw [Memory.wfFrom_cons]
      exact ⟨h.1, h.2.1, h.2.2.1, ih h.2.2.2 (fun c hc => hm c (by simp [hc])) (by omega)⟩
    · rw [Memory.wfFrom_cons, Memory.wfFrom_cons]
      exact ⟨hl, ha, hb, by omega, h.2⟩

theorem Memory.not_listed_clear (m : Memory) (a : Nat) : ∀ c ∈ m.clear a, c.1 ≠ a := by
  intro c hc
  simpa using (List.mem_filter.mp hc).2

/-- Every store of a byte at a host address keeps the canonical form. -/
theorem Memory.wf_set {m : Memory} (hm : m.wf = true) {a : Nat} (ha : a < 2 ^ 32) (b : Byte) :
    (m.set a b).wf = true := by
  unfold Memory.set
  split
  · exact Memory.wfFrom_clear hm a
  · next hb =>
    exact Memory.wfFrom_insert (Memory.wfFrom_clear hm a) (Memory.not_listed_clear m a) (Nat.zero_le a) ha hb

/-- A canonical memory reads as nothing below its first address. -/
theorem Memory.get_below {lo : Nat} {m : Memory} (h : Memory.wfFrom lo m = true) {a : Nat} (ha : a < lo) :
    m.get a = Memory.unlisted := by
  induction m generalizing lo with
  | nil => rfl
  | cons c rest ih =>
    obtain ⟨k, b⟩ := c
    rw [Memory.wfFrom_cons] at h
    rw [Memory.get_cons, if_neg (by omega)]
    exact ih h.2.2.2 (by omega)

theorem Memory.eq_of_get_from {lo : Nat} {m m' : Memory} (h : Memory.wfFrom lo m = true)
    (h' : Memory.wfFrom lo m' = true) (hg : ∀ a, m.get a = m'.get a) : m = m' := by
  induction m generalizing lo m' with
  | nil =>
    cases m' with
    | nil => rfl
    | cons c rest =>
      obtain ⟨k, b⟩ := c
      rw [Memory.wfFrom_cons] at h'
      exact absurd (by simpa [Memory.get_cons] using (hg k).symm) h'.2.2.1
  | cons c rest ih =>
    obtain ⟨k, b⟩ := c
    rw [Memory.wfFrom_cons] at h
    cases m' with
    | nil => exact absurd (by simpa [Memory.get_cons] using hg k) h.2.2.1
    | cons c' rest' =>
      obtain ⟨k', b'⟩ := c'
      rw [Memory.wfFrom_cons] at h'
      have hk : k = k' := by
        rcases Nat.lt_trichotomy k k' with hlt | heq | hgt
        · have := hg k
          rw [Memory.get_cons, if_pos rfl, Memory.get_cons, if_neg (by omega),
            Memory.get_below h'.2.2.2 (by omega)] at this
          exact absurd this h.2.2.1
        · exact heq
        · have := hg k'
          rw [Memory.get_cons, if_neg (by omega), Memory.get_cons, if_pos rfl,
            Memory.get_below h.2.2.2 (by omega)] at this
          exact absurd this.symm h'.2.2.1
      subst hk
      have hb : b = b' := by simpa [Memory.get_cons] using hg k
      subst hb
      rw [ih h.2.2.2 h'.2.2.2 fun a => ?_]
      rcases Nat.lt_or_ge k a with hlt | hge
      · simpa [Memory.get_cons, show k ≠ a by omega] using hg a
      · rw [Memory.get_below h.2.2.2 (by omega), Memory.get_below h'.2.2.2 (by omega)]

/-- Two canonical memories that read the same at every address are the same list. -/
theorem Memory.eq_of_get {m m' : Memory} (h : m.wf = true) (h' : m'.wf = true)
    (hg : ∀ a, m.get a = m'.get a) : m = m' :=
  Memory.eq_of_get_from h h' hg

/-! ### One byte of host memory of a state -/

@[simp] theorem hostByte_withPkt (s : State) (p : Packet) (a : Word) :
    hostByte (s.withPkt p) a = hostByte s a := rfl
@[simp] theorem hostByte_withPtr (s : State) (v a : Word) : hostByte (s.withPtr v) a = hostByte s a := rfl
@[simp] theorem hostByte_withOutcome (s : State) (st : Status) (r : Half) (a : Word) :
    hostByte (s.withOutcome st r) a = hostByte s a := rfl
@[simp] theorem hostByte_withHostData (s : State) (v a : Word) :
    hostByte (s.withHostData v) a = hostByte s a := rfl
@[simp] theorem hostByte_withInputs (s : State) (es : List HostEvent) (a : Word) :
    hostByte (s.withInputs es) a = hostByte s a := rfl
@[simp] theorem hostByte_withPlatform (s : State) (p : Platform) (a : Word) :
    hostByte (s.withPlatform p) a = hostByte s a := rfl

theorem hostByte_storeByte (s : State) (a : Word) (b : Byte) (x : Word) :
    hostByte (storeByte s a b) x = if x = a then b else hostByte s x := by
  unfold hostByte storeByte
  split
  · next h => subst h; exact Memory.get_set_same ..
  · next h => exact Memory.get_set_other _ b fun e => h (BitVec.eq_of_toNat_eq e)

theorem wf_storeByte {s : State} (h : s.mem.wf = true) (a : Word) (b : Byte) : (storeByte s a b).mem.wf = true :=
  Memory.wf_set h a.isLt b

end Sys2Proof.Machine
end

