-- ==== Sys2Proof/Laws/Operands.lean ====
section
/-! SUPPORT. The payload buffer byte by byte, 16-bit values and their bytes, and the frame and checksum domain as
lists. -/

namespace Sys2Proof.Machine

/-! ### 16-bit values and their bytes -/

theorem joinLe16_eq_append (b0 b1 : Byte) : joinLe16 b0 b1 = b1 ++ b0 := by
  apply BitVec.eq_of_getLsbD_eq
  intro i hi
  simp only [joinLe16, BitVec.getLsbD_or, BitVec.getLsbD_shiftLeft, BitVec.getLsbD_setWidth, BitVec.getLsbD_append]
  rcases Nat.lt_or_ge i 8 with h | h
  · simp [h, hi]
  · simp [Nat.not_lt.mpr h, hi, BitVec.getLsbD_of_ge b0 i h, show i - 8 < 16 by omega]

@[simp] theorem joinLe16_lo8_hi8 (x : Half) : joinLe16 (lo8 x) (hi8 x) = x := by
  rw [joinLe16_eq_append]
  apply BitVec.eq_of_getLsbD_eq
  intro i hi
  simp only [lo8, hi8, BitVec.getLsbD_append, BitVec.getLsbD_extractLsb']
  rcases Nat.lt_or_ge i 8 with h | h
  · simp [h]
  · simp [Nat.not_lt.mpr h, show i - 8 < 8 by omega, show 8 + (i - 8) = i by omega]

/-- R201: the sync check is on both bytes. -/
theorem joinLe16_eq_sync (b0 b1 : Byte) : joinLe16 b0 b1 = Config.sync ↔ b0 = 0xAA ∧ b1 = 0x55 := by
  rw [joinLe16_eq_append]
  constructor
  · intro h
    have := congrArg BitVec.toNat h
    simp only [BitVec.toNat_append, Nat.shiftLeft_eq] at this
    rw [← Nat.shiftLeft_eq, ← Nat.shiftLeft_add_eq_or_of_lt b0.isLt, Nat.shiftLeft_eq] at this
    have h0 := b0.isLt
    have h1 := b1.isLt
    simp at this
    constructor <;> apply BitVec.eq_of_toNat_eq <;> simp <;> omega
  · rintro ⟨rfl, rfl⟩; rfl

@[simp] theorem bytesLe16_sync : bytesLe16 Config.sync = [0xAA, 0x55] := rfl

/-! ### The payload buffer -/

theorem Packet.byte_of_lt (p : Packet) {i : Nat} (h : i < 255) : p.byte i = p.payload[i] := by
  simp [Packet.byte, h]

/-- Index 255, and every index above it, reads 0x00. -/
theorem Packet.byte_of_ge (p : Packet) {i : Nat} (h : 255 ≤ i) : p.byte i = 0x00 := by
  simp [Packet.byte, h]

theorem Packet.byte_fillPayload (c l : Byte) (x : Half) (bs : List Byte) {i : Nat} (h : i < 255) :
    (Packet.mk c l (fillPayload bs) x).byte i = bs.getD i 0x00 := by
  rw [Packet.byte_of_lt _ h]
  simp [fillPayload]

/-- No bytes fill the buffer with 0x00, as reset and NEW leave it. -/
theorem fillPayload_nil : fillPayload [] = Vector.replicate 255 0x00 := by
  apply Vector.ext
  intro i hi
  simp [fillPayload]

/-- NEW's packet is the packet of reset (R270). -/
theorem new_eq_reset : (⟨0x00, 0x00, fillPayload [], 0x0000⟩ : Packet) = Packet.reset := by
  rw [fillPayload_nil, Packet.reset]

/-- Two packets with the same bytes below 255 have the same payload buffer. -/
theorem Packet.payload_ext {p q : Packet} (h : ∀ i, i < 255 → p.byte i = q.byte i) : p.payload = q.payload := by
  apply Vector.ext
  intro i hi
  rw [← p.byte_of_lt hi, ← q.byte_of_lt hi, h i hi]

theorem Packet.body_eq_map (p : Packet) : p.body = (List.range p.len.toNat).map p.byte := by
  have hl : p.len.toNat ≤ 255 := by have := p.len.isLt; omega
  apply List.ext_getElem
  · simp [Packet.body, hl]
  · intro i h1 h2
    simp only [List.length_map, List.length_range] at h2
    simp [Packet.body, Packet.byte_of_lt p (show i < 255 by omega)]

@[simp] theorem Packet.length_body (p : Packet) : p.body.length = p.len.toNat := by
  simp [Packet.body_eq_map]

/-- The window word, byte by byte from the top. -/
theorem Packet.window_eq_append (p : Packet) (k : BitVec 6) :
    p.window k = p.byte (4 * k.toNat + 3) ++ p.byte (4 * k.toNat + 2) ++ p.byte (4 * k.toNat + 1)
      ++ p.byte (4 * k.toNat) := by
  apply BitVec.eq_of_getLsbD_eq
  intro i hi
  simp only [Packet.window, BitVec.getLsbD_or, BitVec.getLsbD_shiftLeft, BitVec.getLsbD_setWidth,
    BitVec.getLsbD_append]
  have hz : ∀ (b : Byte) (j : Nat), 8 ≤ j → b.getLsbD j = false := fun b j hj => BitVec.getLsbD_of_ge b j hj
  by_cases h8 : i < 8
  · simp [hi, h8, show i < 16 by omega, show i < 24 by omega]
  · by_cases h16 : i < 16
    · simp [hi, h8, h16, hz _ i (by omega), show i < 24 by omega, show i - 8 < 8 by omega, show i - 8 < 32 by omega]
    · by_cases h24 : i < 24
      · simp [hi, h8, h16, h24, hz _ i (by omega), hz _ (i - 8) (by omega), show ¬ i - 8 < 8 by omega,
          show i - 8 - 8 = i - 16 by omega, show i - 16 < 8 by omega,
          show i - 16 < 32 by omega]
      · simp [hi, h8, h16, h24, hz _ i (by omega), hz _ (i - 8) (by omega), hz _ (i - 16) (by omega),
          show ¬ i - 8 < 8 by omega, show ¬ i - 8 - 8 < 8 by omega, show i - 8 - 8 - 8 = i - 24 by omega,
          show i - 24 < 32 by omega]

theorem Packet.byte_setWindow (p : Packet) (k : BitVec 6) (v : Word) {i : Nat} (h : i < 255) :
    (p.setWindow k v).byte i =
      if i = 4 * k.toNat then v.extractLsb' 0 8
      else if i = 4 * k.toNat + 1 then v.extractLsb' 8 8
      else if i = 4 * k.toNat + 2 then v.extractLsb' 16 8
      else if i = 4 * k.toNat + 3 then v.extractLsb' 24 8
      else p.byte i := by
  rw [Packet.byte_of_lt _ h, Packet.byte_of_lt p h]
  simp only [Packet.setWindow, setPayload, Vector.getElem_setIfInBounds]
  by_cases h0 : i = 4 * k.toNat
  · subst h0; simp
  · by_cases h1 : i = 4 * k.toNat + 1
    · subst h1; simp
    · by_cases h2 : i = 4 * k.toNat + 2
      · subst h2; simp
      · by_cases h3 : i = 4 * k.toNat + 3
        · subst h3; simp
        · simp [h0, h1, h2, h3, Ne.symm h0, Ne.symm h1, Ne.symm h2, Ne.symm h3]

@[simp] theorem Packet.cmd_setWindow (p : Packet) (k : BitVec 6) (v : Word) : (p.setWindow k v).cmd = p.cmd := rfl
@[simp] theorem Packet.len_setWindow (p : Packet) (k : BitVec 6) (v : Word) : (p.setWindow k v).len = p.len := rfl
@[simp] theorem Packet.csum_setWindow (p : Packet) (k : BitVec 6) (v : Word) :
    (p.setWindow k v).csum = p.csum := rfl

/-! ### The frame and the checksum domain -/

theorem Packet.domain_eq (p : Packet) : p.domain = [0xAA, 0x55, p.cmd, p.len] ++ p.body := rfl

theorem Packet.frame_eq (p : Packet) : p.frame = p.domain ++ bytesLe16 p.csum := rfl

@[simp] theorem Packet.length_domain (p : Packet) : p.domain.length = 4 + p.len.toNat := by
  simp [Packet.domain_eq]; omega

@[simp] theorem Packet.length_frame (p : Packet) : p.frame.length = p.len.toNat + 6 := by
  simp [Packet.frame_eq, bytesLe16]; omega

/-- R142 (c), R5: every frame has the header, the meaningful payload and the trailer, 6 to 261 bytes. -/
theorem Packet.frame_bounds (p : Packet) :
    p.frame.length = Config.hdrLen + p.len.toNat + Config.trailerLen ∧ p.len.toNat ≤ Config.payloadCap ∧
      Config.minFrame ≤ p.frame.length ∧ p.frame.length ≤ Config.maxFrame := by
  have := p.len.isLt
  simp only [Packet.length_frame, Config.hdrLen, Config.trailerLen, Config.payloadCap, Config.minFrame,
    Config.maxFrame]
  omega

theorem Packet.toNat_frameLen (p : Packet) : p.frameLen.toNat = p.len.toNat + 6 := by
  have := p.len.isLt
  simp only [Packet.frameLen, BitVec.toNat_add, BitVec.toNat_setWidth, show (6 : Half).toNat = 6 from rfl]
  omega

end Sys2Proof.Machine
end

