-- ==== Sys2Proof/Laws/Ops.lean ====
section
/-! SUPPORT. Everything the engine's shared operations can do: one byte read, a run of reads, a run of writes. -/

namespace Sys2Proof.Machine

/-! ### Addresses of the region (R64) -/

theorem toNat_ea (ptr : Word) (i : Nat) : (ea ptr i).toNat = (ptr.toNat + i) % 2 ^ 32 := by
  simp [ea, BitVec.toNat_add]

/-- Two bytes of one region of at most 2^32 bytes have two addresses. -/
theorem ea_inj {ptr : Word} {i j : Nat} (hi : i < 2 ^ 32) (hj : j < 2 ^ 32) (h : ea ptr i = ea ptr j) : i = j := by
  have := congrArg BitVec.toNat h
  rw [toNat_ea, toNat_ea] at this
  have := ptr.isLt
  omega

/-! ### Reads -/

/-- The first of the bytes `i .. i+n-1` of the region that the platform does not admit is byte `i + j`. -/
def StuckAt (s : State) (d : Dir) (i j : Nat) : Prop :=
  (∀ k, k < j → hostAdmits s.platform (ea s.ptr (i + k)) d = true) ∧
    hostAdmits s.platform (ea s.ptr (i + j)) d = false

/-- The bytes `i .. i+n-1` of the region are all admitted. -/
def AllAdmitted (s : State) (d : Dir) (i n : Nat) : Prop :=
  ∀ k, k < n → hostAdmits s.platform (ea s.ptr (i + k)) d = true

theorem allAdmitted_or_stuckAt (s : State) (d : Dir) (i n : Nat) :
    AllAdmitted s d i n ∨ ∃ j, j < n ∧ StuckAt s d i j := by
  induction n with
  | zero => exact .inl fun k hk => absurd hk (Nat.not_lt_zero k)
  | succ n ih =>
    rcases ih with h | ⟨j, hj, hs⟩
    · cases hb : hostAdmits s.platform (ea s.ptr (i + n)) d
      · exact .inr ⟨n, by omega, h, hb⟩
      · refine .inl fun k hk => ?_
        rcases Nat.lt_or_ge k n with hlt | hge
        · exact h k hlt
        · rw [show k = n by omega]; exact hb
    · exact .inr ⟨j, by omega, hs⟩

theorem withByte_admitted {s : State} {i : Nat} (h : hostAdmits s.platform (ea s.ptr i) .read = true)
    (k : Byte → Result) : withByte s i k = k (hostByte s (ea s.ptr i)) := by
  simp [withByte, h]

theorem withByte_stuck {s : State} {i : Nat} (h : hostAdmits s.platform (ea s.ptr i) .read = false)
    (k : Byte → Result) : withByte s i k = .fault (.engineStuck (ea s.ptr i) .read s) := by
  simp [withByte, h]

/-- A run of reads whose bytes are all admitted goes on with those bytes. -/
theorem withBytes_admitted {s : State} {i n : Nat} (h : AllAdmitted s .read i n) (k : List Byte → Result) :
    withBytes s i n k = k (regionBytes s i n) := by
  induction n generalizing i k with
  | zero => rfl
  | succ n ih =>
    rw [withBytes, withByte_admitted (by simpa using h 0 (by omega)),
      ih fun j hj => by simpa [Nat.add_assoc, Nat.add_comm 1 j] using h (j + 1) (by omega)]
    rfl

/-- A run of reads is stuck at the first byte that is not admitted, with nothing changed. -/
theorem withBytes_stuck {s : State} {i n j : Nat} (hj : j < n) (h : StuckAt s .read i j)
    (k : List Byte → Result) :
    withBytes s i n k = .fault (.engineStuck (ea s.ptr (i + j)) .read s) := by
  induction n generalizing i j k with
  | zero => exact absurd hj (Nat.not_lt_zero j)
  | succ n ih =>
    rw [withBytes]
    cases j with
    | zero => exact withByte_stuck h.2 _
    | succ j =>
      rw [withByte_admitted (by simpa using h.1 0 (by omega)),
        ih (j := j) (by omega) ⟨fun l hl => by
          simpa [Nat.add_assoc, Nat.add_comm 1 l] using h.1 (l + 1) (by omega), by
          simpa [Nat.add_assoc, Nat.add_comm 1 j] using h.2⟩]
      simp [Nat.add_assoc, Nat.add_comm 1 j]

theorem regionBytes_eq_map (s : State) (i n : Nat) :
    regionBytes s i n = (List.range n).map fun j => hostByte s (ea s.ptr (i + j)) := by
  induction n generalizing i with
  | zero => rfl
  | succ n ih =>
    rw [regionBytes, ih, List.range_succ_eq_map, List.map_cons, List.map_map]
    simp [Function.comp_def, Nat.add_assoc, Nat.add_comm 1]

@[simp] theorem length_regionBytes (s : State) (i n : Nat) : (regionBytes s i n).length = n := by
  simp [regionBytes_eq_map]

/-! ### Writes -/

@[simp] theorem ptr_storeByte (s : State) (a : Word) (b : Byte) : (storeByte s a b).ptr = s.ptr := rfl
@[simp] theorem platform_storeByte (s : State) (a : Word) (b : Byte) :
    (storeByte s a b).platform = s.platform := rfl

/-- The state after the bytes `bs` have been written to the region from index `i` on. -/
def written (s : State) (i : Nat) : List Byte → State
  | [] => s
  | b :: bs => written (storeByte s (ea s.ptr i) b) (i + 1) bs

/-- Writing bytes changes host memory and nothing else. -/
theorem written_eq_withMem (s : State) (i : Nat) (bs : List Byte) :
    written s i bs = s.withMem (written s i bs).mem := by
  induction bs generalizing s i with
  | nil => rfl
  | cons b bs ih =>
    rw [written]
    conv => lhs; rw [ih]
    rfl

theorem wf_written {s : State} (h : s.mem.wf = true) (i : Nat) (bs : List Byte) :
    (written s i bs).mem.wf = true := by
  induction bs generalizing s i with
  | nil => exact h
  | cons b bs ih => exact ih (wf_storeByte h _ b) (i + 1)

/-- A byte outside the region written reads as before. -/
theorem hostByte_written_other (s : State) (i : Nat) (bs : List Byte) (x : Word)
    (hx : ∀ k, k < bs.length → x ≠ ea s.ptr (i + k)) : hostByte (written s i bs) x = hostByte s x := by
  induction bs generalizing s i with
  | nil => rfl
  | cons b bs ih =>
    rw [written, ih, hostByte_storeByte, if_neg (by simpa using hx 0 (by simp))]
    intro k hk
    rw [ptr_storeByte]
    simpa [Nat.add_assoc, Nat.add_comm 1 k] using hx (k + 1) (by simpa using hk)

/-- A byte of the region written reads as the byte written there; the region is shorter than the address space. -/
theorem hostByte_written (s : State) (i : Nat) (bs : List Byte) (hlen : i + bs.length ≤ 2 ^ 32) (k : Nat)
    (hk : k < bs.length) : bs[k]? = some (hostByte (written s i bs) (ea s.ptr (i + k))) := by
  induction bs generalizing s i k with
  | nil => exact absurd hk (Nat.not_lt_zero k)
  | cons b bs ih =>
    simp only [List.length_cons] at hlen hk
    rw [written]
    cases k with
    | zero =>
      rw [hostByte_written_other, hostByte_storeByte, if_pos (by simp)]
      · simp
      · intro j hj e
        rw [ptr_storeByte] at e
        have := ea_inj (by omega) (by omega) e
        omega
    | succ k =>
      have := ih (storeByte s (ea s.ptr i) b) (i + 1) (by omega) k (by omega)
      rw [ptr_storeByte] at this
      simpa [Nat.add_assoc, Nat.add_comm 1 k] using this

/-- A run of writes whose bytes are all admitted goes on in the state they leave. -/
theorem writeBytes_admitted {s : State} {i : Nat} {bs : List Byte} (h : AllAdmitted s .write i bs.length)
    (k : State → Result) : writeBytes s i bs k = k (written s i bs) := by
  induction bs generalizing s i with
  | nil => rfl
  | cons b bs ih =>
    rw [writeBytes, if_pos (by simpa using h 0 (by simp)), ih]
    · rfl
    · intro j hj
      simpa [Nat.add_assoc, Nat.add_comm 1 j] using h (j + 1) (by simpa using hj)

/-- A run of writes is stuck at the first byte that is not admitted, with the bytes before it written. -/
theorem writeBytes_stuck {s : State} {i j : Nat} {bs : List Byte} (hj : j < bs.length)
    (h : StuckAt s .write i j) (k : State → Result) :
    writeBytes s i bs k = .fault (.engineStuck (ea s.ptr (i + j)) .write (written s i (bs.take j))) := by
  induction bs generalizing s i j with
  | nil => exact absurd hj (Nat.not_lt_zero j)
  | cons b bs ih =>
    rw [writeBytes]
    cases j with
    | zero => rw [if_neg (by simpa using h.2)]; rfl
    | succ j =>
      rw [if_pos (by simpa using h.1 0 (by omega)), ih (j := j) (by simpa using hj)]
      · simp [Nat.add_assoc, Nat.add_comm 1 j, written]
      · refine ⟨fun l hl => ?_, ?_⟩
        · simpa [Nat.add_assoc, Nat.add_comm 1 l] using h.1 (l + 1) (by omega)
        · simpa [Nat.add_assoc, Nat.add_comm 1 j] using h.2

end Sys2Proof.Machine
end

