-- ==== Sys2Proof/Laws/Commands.lean ====
section
/-! SUPPORT. Everything each command that accesses host memory can do: its error, its completion, and where it is
stuck; and, from these, everything an operation can do to the state. -/

namespace Sys2Proof.Machine

theorem regionAdmitted_iff (s : State) (d : Dir) (n : Nat) : RegionAdmitted s d n ↔ AllAdmitted s d 0 n := by
  simp [RegionAdmitted, AllAdmitted]

theorem firstNotAdmitted_iff (s : State) (d : Dir) (j : Nat) : FirstNotAdmitted s d j ↔ StuckAt s d 0 j := by
  simp [FirstNotAdmitted, RegionAdmitted, StuckAt]

/-- A region is admitted whole, or it has a first byte that is not. -/
theorem regionAdmitted_or (s : State) (d : Dir) (n : Nat) :
    RegionAdmitted s d n ∨ ∃ j, j < n ∧ FirstNotAdmitted s d j := by
  simpa [regionAdmitted_iff, firstNotAdmitted_iff] using allAdmitted_or_stuckAt s d 0 n

theorem RegionAdmitted.mono {s : State} {d : Dir} {n k : Nat} (h : RegionAdmitted s d n) (hk : k ≤ n) :
    RegionAdmitted s d k := fun i hi => h i (Nat.lt_of_lt_of_le hi hk)

/-! ### FROM (R122) -/

theorem execCmdFrom_tooLarge (c : Byte) {n : Half} (h : 255 < n.toNat) (s : State) :
    execCmdFrom c n s = .next (s.withOutcome ⟨1, 0⟩ 0) := by
  rw [execCmdFrom, if_pos h]; rfl

theorem execCmdFrom_done (c : Byte) {n : Half} (h : n.toNat ≤ 255) {s : State} (ha : RegionAdmitted s .read n.toNat) :
    execCmdFrom c n s =
      .next ((s.withPkt (construct c n (regionBytes s 0 n.toNat))).withOutcome Status.ok 0) := by
  rw [execCmdFrom, if_neg (by omega), withBytes_admitted ((regionAdmitted_iff ..).mp ha)]; rfl

theorem execCmdFrom_stuck (c : Byte) {n : Half} (h : n.toNat ≤ 255) {s : State} {j : Nat} (hj : j < n.toNat)
    (hs : FirstNotAdmitted s .read j) : execCmdFrom c n s = .fault (.engineStuck (ea s.ptr j) .read s) := by
  rw [execCmdFrom, if_neg (by omega), withBytes_stuck hj ((firstNotAdmitted_iff ..).mp hs)]; simp

/-! ### WRITE (R141) -/

theorem lt_frameLen_iff (cap : Half) (p : Packet) : cap < p.frameLen ↔ cap.toNat < p.len.toNat + 6 := by
  rw [BitVec.lt_def, Packet.toNat_frameLen]

theorem execCmdWrite_tooSmall {cap : Half} {s : State} (h : cap.toNat < s.pkt.len.toNat + 6) :
    execCmdWrite cap s = .next (s.withOutcome ⟨2, 0⟩ 0) := by
  rw [execCmdWrite, if_pos ((lt_frameLen_iff ..).mpr h)]; rfl

theorem execCmdWrite_done {cap : Half} {s : State} (h : s.pkt.len.toNat + 6 ≤ cap.toNat)
    (ha : RegionAdmitted s .write (s.pkt.len.toNat + 6)) :
    execCmdWrite cap s = .next ((written s 0 s.pkt.frame).withOutcome Status.ok s.pkt.frameLen) := by
  rw [execCmdWrite, if_neg (by rw [lt_frameLen_iff]; omega),
    writeBytes_admitted (by rw [Packet.length_frame]; exact (regionAdmitted_iff ..).mp ha)]
  rfl

theorem execCmdWrite_stuck {cap : Half} {s : State} (h : s.pkt.len.toNat + 6 ≤ cap.toNat) {j : Nat}
    (hj : j < s.pkt.len.toNat + 6) (hs : FirstNotAdmitted s .write j) :
    execCmdWrite cap s = .fault (.engineStuck (ea s.ptr j) .write (written s 0 (s.pkt.frame.take j))) := by
  rw [execCmdWrite, if_neg (by rw [lt_frameLen_iff]; omega),
    writeBytes_stuck (by rw [Packet.length_frame]; exact hj) ((firstNotAdmitted_iff ..).mp hs)]
  simp

/-- A frame is shorter than the address space. -/
theorem frame_fits (p : Packet) : 0 + p.frame.length ≤ 2 ^ 32 := by
  have := p.len.isLt
  rw [Packet.length_frame]; omega

/-! ### PARSE (R201) -/

/-- The packet PARSE loads from a region whose fourth byte is the length. -/
def loaded (s : State) : Packet :=
  received (regionByte s 2) (regionByte s 3) (regionBytes s 4 (regionByte s 3).toNat)
    (regionByte s (4 + (regionByte s 3).toNat)) (regionByte s (5 + (regionByte s 3).toNat))

theorem execCmdParse_short {m : Half} (h : m.toNat < 2) (s : State) :
    execCmdParse m s = .next (s.withOutcome ⟨4, 1⟩ 0) := by
  rw [execCmdParse, if_pos h]; rfl

theorem syncPresent_iff (s : State) : syncPresent s = true ↔ regionByte s 0 = 0xAA ∧ regionByte s 1 = 0x55 := by
  simp [syncPresent]

/-- PARSE past its two sync reads. -/
theorem execCmdParse_sync {m : Half} {s : State} (h : 2 ≤ m.toNat) (ha : RegionAdmitted s .read 2) :
    execCmdParse m s =
      if syncPresent s = false then .next (s.withOutcome ⟨4, 2⟩ 0)
      else if m.toNat < 4 then .next (s.withOutcome ⟨4, 1⟩ 0)
      else withByte s 2 fun c => withByte s 3 fun len =>
        if m.toNat < len.toNat + 6 then .next (s.withOutcome ⟨4, 1⟩ 0)
        else withBytes s 4 len.toNat fun p =>
          withByte s (4 + len.toNat) fun k0 => withByte s (5 + len.toNat) fun k1 =>
            .next ((s.withPkt (received c len p k0 k1)).withOutcome Status.ok (len.setWidth 16 + 6)) := by
  rw [execCmdParse, if_neg (by omega), withByte_admitted (ha 0 (by omega)), withByte_admitted (ha 1 (by omega))]
  by_cases hs : syncPresent s = true
  · rw [if_neg (by simpa [joinLe16_eq_sync, regionByte] using (syncPresent_iff s).mp hs),
      if_neg (show ¬ syncPresent s = false by simp [hs])]
    rfl
  · rw [if_pos (by
      rw [ne_eq, joinLe16_eq_sync]; exact fun e => hs ((syncPresent_iff s).mpr e)), if_pos (show syncPresent s = false by simpa using hs)]
    rfl

theorem execCmdParse_badSync {m : Half} {s : State} (h : 2 ≤ m.toNat) (ha : RegionAdmitted s .read 2)
    (hs : syncPresent s = false) : execCmdParse m s = .next (s.withOutcome ⟨4, 2⟩ 0) := by
  rw [execCmdParse_sync h ha, if_pos hs]

theorem execCmdParse_noHeader {m : Half} {s : State} (h : 2 ≤ m.toNat) (h4 : m.toNat < 4)
    (ha : RegionAdmitted s .read 2) (hs : syncPresent s = true) :
    execCmdParse m s = .next (s.withOutcome ⟨4, 1⟩ 0) := by
  rw [execCmdParse_sync h ha, if_neg (by simp [hs]), if_pos h4]

/-- PARSE past its four header reads. -/
theorem execCmdParse_header {m : Half} {s : State} (h : 4 ≤ m.toNat) (ha : RegionAdmitted s .read 4)
    (hs : syncPresent s = true) :
    execCmdParse m s =
      if m.toNat < (regionByte s 3).toNat + 6 then .next (s.withOutcome ⟨4, 1⟩ 0)
      else withBytes s 4 (regionByte s 3).toNat fun p =>
        withByte s (4 + (regionByte s 3).toNat) fun k0 => withByte s (5 + (regionByte s 3).toNat) fun k1 =>
          .next ((s.withPkt (received (regionByte s 2) (regionByte s 3) p k0 k1)).withOutcome Status.ok
            ((regionByte s 3).setWidth 16 + 6)) := by
  rw [execCmdParse_sync (by omega) (ha.mono (by omega)), if_neg (by simp [hs]), if_neg (by omega),
    withByte_admitted (ha 2 (by omega)), withByte_admitted (ha 3 (by omega))]
  rfl

theorem execCmdParse_truncated {m : Half} {s : State} (h : 4 ≤ m.toNat) (ha : RegionAdmitted s .read 4)
    (hs : syncPresent s = true) (hl : m.toNat < (regionByte s 3).toNat + 6) :
    execCmdParse m s = .next (s.withOutcome ⟨4, 1⟩ 0) := by
  rw [execCmdParse_header h ha hs, if_pos hl]

theorem execCmdParse_done {m : Half} {s : State} (hs : syncPresent s = true)
    (hl : (regionByte s 3).toNat + 6 ≤ m.toNat) (ha : RegionAdmitted s .read ((regionByte s 3).toNat + 6)) :
    execCmdParse m s =
      .next ((s.withPkt (loaded s)).withOutcome Status.ok ((regionByte s 3).setWidth 16 + 6)) := by
  rw [execCmdParse_header (by omega) (ha.mono (by omega)) hs, if_neg (by omega),
    withBytes_admitted fun k hk => ha (4 + k) (by omega), withByte_admitted (ha _ (by omega)),
    withByte_admitted (ha _ (by omega))]
  rfl

/-- PARSE is stuck at the first byte it reads that is not admitted, with nothing changed. -/
theorem execCmdParse_stuck {m : Half} {s : State} {j : Nat} (hj : j < parseReach m s)
    (hs : FirstNotAdmitted s .read j) : execCmdParse m s = .fault (.engineStuck (ea s.ptr j) .read s) := by
  obtain ⟨hb, hn⟩ := hs
  unfold parseReach at hj
  split_ifs at hj with h2 hsync htr
  · exact absurd hj (Nat.not_lt_zero j)
  · obtain rfl | rfl : j = 0 ∨ j = 1 := by omega
    · rw [execCmdParse, if_neg h2, withByte_stuck hn]
    · rw [execCmdParse, if_neg h2, withByte_admitted (hb 0 (by omega)), withByte_stuck hn]
  all_goals
    simp only [not_or, Bool.not_eq_false, not_lt] at hsync
    by_cases hj2 : j < 2
    · obtain rfl | rfl : j = 0 ∨ j = 1 := by omega
      · rw [execCmdParse, if_neg h2, withByte_stuck hn]
      · rw [execCmdParse, if_neg h2, withByte_admitted (hb 0 (by omega)), withByte_stuck hn]
    by_cases hj4 : j < 4
    · rw [execCmdParse_sync (by omega) (hb.mono (by omega)), if_neg (by simp [hsync.1]), if_neg (by omega)]
      obtain rfl | rfl : j = 2 ∨ j = 3 := by omega
      · rw [withByte_stuck hn]
      · rw [withByte_admitted (hb 2 (by omega)), withByte_stuck hn]
  · omega
  · rw [execCmdParse_header (by omega) (hb.mono (by omega)) hsync.1, if_neg htr]
    by_cases hjp : j < 4 + (regionByte s 3).toNat
    · rw [withBytes_stuck (j := j - 4) (by omega)
        ⟨fun k hk => hb (4 + k) (by omega), by rw [show 4 + (j - 4) = j by omega]; exact hn⟩,
        show 4 + (j - 4) = j by omega]
    · rw [withBytes_admitted fun k hk => hb (4 + k) (by omega)]
      obtain rfl | rfl : j = 4 + (regionByte s 3).toNat ∨ j = 5 + (regionByte s 3).toNat := by omega
      · rw [withByte_stuck hn]
      · rw [withByte_admitted (hb _ (by omega)), withByte_stuck hn]

/-- Where every byte PARSE reads is admitted, it ends in one of its outcomes. -/
theorem execCmdParse_cases {m : Half} {s : State} (ha : RegionAdmitted s .read (parseReach m s)) :
    execCmdParse m s = .next (s.withOutcome ⟨4, 1⟩ 0) ∨ execCmdParse m s = .next (s.withOutcome ⟨4, 2⟩ 0) ∨
      (syncPresent s = true ∧ (regionByte s 3).toNat + 6 ≤ m.toNat ∧
        execCmdParse m s =
          .next ((s.withPkt (loaded s)).withOutcome Status.ok ((regionByte s 3).setWidth 16 + 6))) := by
  unfold parseReach at ha
  split_ifs at ha with h2 hsync htr
  · exact .inl (execCmdParse_short h2 s)
  · cases hs : syncPresent s
    · exact .inr (.inl (execCmdParse_badSync (by omega) ha hs))
    · exact .inl (execCmdParse_noHeader (by omega) (by simpa [hs] using hsync) ha hs)
  · simp only [not_or, Bool.not_eq_false, not_lt] at hsync
    exact .inl (execCmdParse_truncated hsync.2 ha hsync.1 htr)
  · simp only [not_or, Bool.not_eq_false, not_lt] at hsync
    exact .inr (.inr ⟨hsync.1, by omega, execCmdParse_done hsync.1 (by omega) ha⟩)

/-! ### Everything a command can do -/

/-- A command whose byte accesses are all admitted completes in one of these states. -/
inductive CommandDone (s : State) : Instr → State → Prop
  | new : CommandDone s .cmdNew ((s.withPkt ⟨0, 0, fillPayload [], 0⟩).withOutcome Status.ok 0)
  | fromTooLarge (c : Byte) (n : Half) (h : 255 < n.toNat) :
      CommandDone s (.cmdFrom c n) (s.withOutcome ⟨1, 0⟩ 0)
  | fromDone (c : Byte) (n : Half) (h : n.toNat ≤ 255) :
      CommandDone s (.cmdFrom c n) ((s.withPkt (construct c n (regionBytes s 0 n.toNat))).withOutcome Status.ok 0)
  | writeTooSmall (cap : Half) (h : cap.toNat < s.pkt.len.toNat + 6) :
      CommandDone s (.cmdWrite cap) (s.withOutcome ⟨2, 0⟩ 0)
  | writeDone (cap : Half) (h : s.pkt.len.toNat + 6 ≤ cap.toNat) :
      CommandDone s (.cmdWrite cap) ((written s 0 s.pkt.frame).withOutcome Status.ok s.pkt.frameLen)
  | valid (h : s.pkt.checksum = s.pkt.csum) : CommandDone s .cmdValidate (s.withOutcome Status.ok 0)
  | mismatch (h : s.pkt.checksum ≠ s.pkt.csum) : CommandDone s .cmdValidate (s.withOutcome ⟨3, 0⟩ 0)
  | parseTruncated (m : Half) : CommandDone s (.cmdParse m) (s.withOutcome ⟨4, 1⟩ 0)
  | parseBadSync (m : Half) : CommandDone s (.cmdParse m) (s.withOutcome ⟨4, 2⟩ 0)
  | parseDone (m : Half) (hs : syncPresent s = true) (h : (regionByte s 3).toNat + 6 ≤ m.toNat) :
      CommandDone s (.cmdParse m)
        ((s.withPkt (loaded s)).withOutcome Status.ok ((regionByte s 3).setWidth 16 + 6))
  | calculated : CommandDone s .cmdCalc (s.withOutcome Status.ok s.pkt.checksum)
  | illegal (w : Word) : CommandDone s (.cmdIllegal w) (s.withOutcome ⟨5, 0⟩ 0)

/-- A command that is stuck is stuck at the first byte it accesses that is not admitted, in the state `left`. -/
inductive CommandStuck (s : State) (j : Nat) : Instr → Fault → Prop
  | read (i : Instr) (hd : (regionUse i s).1 = .read) (hj : j < (regionUse i s).2)
      (hn : FirstNotAdmitted s .read j) : CommandStuck s j i (.engineStuck (ea s.ptr j) .read s)
  | write (cap : Half) (hc : s.pkt.len.toNat + 6 ≤ cap.toNat) (hj : j < s.pkt.len.toNat + 6)
      (hn : FirstNotAdmitted s .write j) :
      CommandStuck s j (.cmdWrite cap)
        (.engineStuck (ea s.ptr j) .write (written s 0 (s.pkt.frame.take j)))

/-- Every command completes, or is stuck at a byte that is not admitted. -/
theorem command_cases {i : Instr} (hi : i.isCommand = true) (s : State) :
    (∃ t, exec i s = .next t ∧ CommandDone s i t ∧ RegionAdmitted s (regionUse i s).1 (regionUse i s).2) ∨
    (∃ j f, exec i s = .fault f ∧ CommandStuck s j i f) := by
  have none : ∀ d, RegionAdmitted s d 0 := fun _ k hk => absurd hk (Nat.not_lt_zero k)
  cases i with
  | cmdNew => exact .inl ⟨_, rfl, .new, none _⟩
  | cmdFrom c n =>
    by_cases h : 255 < n.toNat
    · refine .inl ⟨_, execCmdFrom_tooLarge c h s, .fromTooLarge c n h, ?_⟩
      simpa [regionUse, performed, show ¬ n.toNat ≤ 255 by omega] using none _
    · have hu : (regionUse (.cmdFrom c n) s) = (.read, n.toNat) := by
        simp [regionUse, performed, show n.toNat ≤ 255 by omega]
      rcases regionAdmitted_or s .read n.toNat with ha | ⟨j, hj, hn⟩
      · exact .inl ⟨_, execCmdFrom_done c (by omega) ha, .fromDone c n (by omega), by rw [hu]; exact ha⟩
      · exact .inr ⟨j, _, execCmdFrom_stuck c (by omega) hj hn, .read _ (by rw [hu]) (by rw [hu]; exact hj) hn⟩
  | cmdWrite cap =>
    by_cases h : cap.toNat < s.pkt.len.toNat + 6
    · refine .inl ⟨_, execCmdWrite_tooSmall h, .writeTooSmall cap h, ?_⟩
      simpa [regionUse, performed, show ¬ s.pkt.len.toNat + 6 ≤ cap.toNat by omega] using none _
    · have hc : s.pkt.len.toNat + 6 ≤ cap.toNat := by omega
      have hu : (regionUse (.cmdWrite cap) s) = (.write, s.pkt.len.toNat + 6) := by
        simp [regionUse, performed, hc]
      rcases regionAdmitted_or s .write (s.pkt.len.toNat + 6) with ha | ⟨j, hj, hn⟩
      · exact .inl ⟨_, execCmdWrite_done hc ha, .writeDone cap hc, by rw [hu]; exact ha⟩
      · exact .inr ⟨j, _, execCmdWrite_stuck hc hj hn, .write cap hc hj hn⟩
  | cmdValidate =>
    by_cases h : s.pkt.checksum = s.pkt.csum
    · exact .inl ⟨_, if_pos h, .valid h, none _⟩
    · exact .inl ⟨_, if_neg h, .mismatch h, none _⟩
  | cmdParse m =>
    rcases regionAdmitted_or s .read (parseReach m s) with ha | ⟨j, hj, hn⟩
    · rcases execCmdParse_cases ha with h | h | ⟨hs, hl, h⟩
      · exact .inl ⟨_, h, .parseTruncated m, ha⟩
      · exact .inl ⟨_, h, .parseBadSync m, ha⟩
      · exact .inl ⟨_, h, .parseDone m hs hl, ha⟩
    · exact .inr ⟨j, _, execCmdParse_stuck hj hn, .read _ rfl hj hn⟩
  | cmdCalc => exact .inl ⟨_, rfl, .calculated, none _⟩
  | cmdIllegal w => exact .inl ⟨_, rfl, .illegal w, none _⟩
  | _ => cases hi

/-- A command that completes does so in one of the states of `CommandDone`. -/
theorem commandDone_of_next {i : Instr} (hi : i.isCommand = true) {s t : State} (h : exec i s = .next t) :
    CommandDone s i t := by
  rcases command_cases hi s with ⟨t', h', hd, -⟩ | ⟨j, f, h', -⟩
  · rw [h] at h'; cases h'; exact hd
  · rw [h] at h'; cases h'

/-- What every word decodes to is a command. -/
theorem isCommand_decodeCommand (w : Word) : (decodeCommand w).isCommand = true := by
  rcases decodeCommand_cases w with h | h | h | h | h | h | h <;> rw [h.1] <;> rfl

/-- What is performed is a command, or a register access other than a write to CTRL. -/
theorem performed_ne_wrCtrl (i : Instr) (w : Word) : performed i ≠ .wrCtrl w := by
  cases i with
  | wrCtrl v => intro h; have := isCommand_decodeCommand v; rw [show decodeCommand v = _ from h] at this; cases this
  | _ => intro h; cases h

theorem performed_idem (i : Instr) : performed (performed i) = performed i := by
  cases h : performed i with
  | wrCtrl w => exact absurd h (performed_ne_wrCtrl i w)
  | _ => rfl

/-- A register access other than a write to CTRL always completes, in one of these states. -/
theorem access_cases {i : Instr} (hi : i.isCommand = false) (hw : ∀ w, i ≠ .wrCtrl w) (s : State) :
    ∃ t, exec i s = .next t ∧
      (t = s ∨ (i.isRegRead = true ∧ ∃ v, t = s.withHostData v) ∨ (∃ v, i = .wrPtr v ∧ t = s.withPtr v) ∨
        ∃ p : Packet, t = s.withPkt p ∧ p.len = s.pkt.len) := by
  cases i with
  | wrCtrl w => exact absurd rfl (hw w)
  | wrPtr v => exact ⟨_, rfl, .inr (.inr (.inl ⟨v, rfl, rfl⟩))⟩
  | wrPktCmd v => exact ⟨_, rfl, .inr (.inr (.inr ⟨_, rfl, rfl⟩))⟩
  | wrPktCsum v => exact ⟨_, rfl, .inr (.inr (.inr ⟨_, rfl, rfl⟩))⟩
  | wrPayload k v => exact ⟨_, rfl, .inr (.inr (.inr ⟨_, rfl, rfl⟩))⟩
  | rdCtrl | rdPtr | rdStatus | rdResult | rdPktSync | rdPktCmd | rdPktLen | rdPktCsum =>
    exact ⟨_, rfl, .inr (.inl ⟨rfl, _, rfl⟩)⟩
  | rdPayload k => exact ⟨_, rfl, .inr (.inl ⟨rfl, _, rfl⟩)⟩
  | rdReserved off => exact ⟨_, rfl, .inr (.inl ⟨rfl, _, rfl⟩)⟩
  | wrStatus v | wrResult v | wrPktSync v | wrPktLen v => exact ⟨_, rfl, .inl rfl⟩
  | wrReserved off v => exact ⟨_, rfl, .inl rfl⟩
  | cmdNew | cmdFrom | cmdWrite | cmdValidate | cmdParse | cmdCalc | cmdIllegal => cases hi

end Sys2Proof.Machine
end

