-- ==== Sys2Proof/Laws/PerInstr.lean ====
section
/-! SUPPORT. Statements made for each operation as syntax, one lemma per constructor. -/

namespace Sys2Proof.Laws.EncodedForm

/-- R90: a command is encoded as a command word, and a register access as a bus access at an aligned offset that
carries a value only if it is a write. -/
def Statement (i : Instr) : Prop :=
  WellFormed i →
    match encode i with
    | .cw _ => i.isCommand = true
    | .bus dir off v =>
      i.isCommand = false ∧ off.extractLsb' 0 2 = 0#2 ∧ (i.isRegRead = true ↔ dir = .read) ∧ (dir = .read → v = 0)

theorem aligned_payload (k : BitVec 6) : (0x100#9 + k.setWidth 9 <<< 2).extractLsb' 0 2 = 0#2 := by
  revert k; decide

theorem aligned_reserved {off : BitVec 9} (h : isReservedOffset off = true) : off.extractLsb' 0 2 = 0#2 := by
  simp only [isReservedOffset, Bool.and_eq_true, beq_iff_eq] at h
  exact h.2

theorem cmdNew : Statement .cmdNew := fun _ => rfl
theorem cmdFrom (c : Byte) (n : Half) : Statement (.cmdFrom c n) := fun _ => rfl
theorem cmdWrite (cap : Half) : Statement (.cmdWrite cap) := fun _ => rfl
theorem cmdValidate : Statement .cmdValidate := fun _ => rfl
theorem cmdParse (m : Half) : Statement (.cmdParse m) := fun _ => rfl
theorem cmdCalc : Statement .cmdCalc := fun _ => rfl
theorem cmdIllegal (w : Word) : Statement (.cmdIllegal w) := fun _ => rfl
theorem rdCtrl : Statement .rdCtrl := by
  intro _; exact ⟨rfl, by decide, by simp [Instr.isRegRead], by simp⟩
theorem wrCtrl (w : Word) : Statement (.wrCtrl w) := by
  intro _; exact ⟨rfl, by decide, by simp [Instr.isRegRead], by simp⟩
theorem rdPtr : Statement .rdPtr := by
  intro _; exact ⟨rfl, by decide, by simp [Instr.isRegRead], by simp⟩
theorem wrPtr (v : Word) : Statement (.wrPtr v) := by
  intro _; exact ⟨rfl, by decide, by simp [Instr.isRegRead], by simp⟩
theorem rdStatus : Statement .rdStatus := by
  intro _; exact ⟨rfl, by decide, by simp [Instr.isRegRead], by simp⟩
theorem wrStatus (v : Word) : Statement (.wrStatus v) := by
  intro _; exact ⟨rfl, by decide, by simp [Instr.isRegRead], by simp⟩
theorem rdResult : Statement .rdResult := by
  intro _; exact ⟨rfl, by decide, by simp [Instr.isRegRead], by simp⟩
theorem wrResult (v : Word) : Statement (.wrResult v) := by
  intro _; exact ⟨rfl, by decide, by simp [Instr.isRegRead], by simp⟩
theorem rdPktSync : Statement .rdPktSync := by
  intro _; exact ⟨rfl, by decide, by simp [Instr.isRegRead], by simp⟩
theorem wrPktSync (v : Word) : Statement (.wrPktSync v) := by
  intro _; exact ⟨rfl, by decide, by simp [Instr.isRegRead], by simp⟩
theorem rdPktCmd : Statement .rdPktCmd := by
  intro _; exact ⟨rfl, by decide, by simp [Instr.isRegRead], by simp⟩
theorem wrPktCmd (v : Word) : Statement (.wrPktCmd v) := by
  intro _; exact ⟨rfl, by decide, by simp [Instr.isRegRead], by simp⟩
theorem rdPktLen : Statement .rdPktLen := by
  intro _; exact ⟨rfl, by decide, by simp [Instr.isRegRead], by simp⟩
theorem wrPktLen (v : Word) : Statement (.wrPktLen v) := by
  intro _; exact ⟨rfl, by decide, by simp [Instr.isRegRead], by simp⟩
theorem rdPktCsum : Statement .rdPktCsum := by
  intro _; exact ⟨rfl, by decide, by simp [Instr.isRegRead], by simp⟩
theorem wrPktCsum (v : Word) : Statement (.wrPktCsum v) := by
  intro _; exact ⟨rfl, by decide, by simp [Instr.isRegRead], by simp⟩
theorem rdPayload (k : BitVec 6) : Statement (.rdPayload k) := by
  intro _; exact ⟨rfl, aligned_payload k, by simp [Instr.isRegRead], by simp⟩
theorem wrPayload (k : BitVec 6) (v : Word) : Statement (.wrPayload k v) := by
  intro _; exact ⟨rfl, aligned_payload k, by simp [Instr.isRegRead], by simp⟩
theorem rdReserved (off : BitVec 9) : Statement (.rdReserved off) := by
  intro h; exact ⟨rfl, aligned_reserved h, by simp [Instr.isRegRead], by simp⟩
theorem wrReserved (off : BitVec 9) (v : Word) : Statement (.wrReserved off v) := by
  intro h; exact ⟨rfl, aligned_reserved h, by simp [Instr.isRegRead], by simp⟩

end Sys2Proof.Laws.EncodedForm
end

