-- ==== Sys2Proof/Laws/Registers.lean ====
section
/-! SUPPORT. The register window, register by register: which offsets there are, what a read of each shows, and what a
write to each does. -/

namespace Sys2Proof

/-- The offset of PAYLOAD word `k` (R21). -/
def payloadOffset (k : BitVec 6) : BitVec 9 := 0x100#9 + k.setWidth 9 <<< 2

/-- R99: every offset is misaligned, one of the eight named registers, reserved, or a PAYLOAD word. -/
theorem offset_cases (off : BitVec 9) :
    off.extractLsb' 0 2 ≠ 0#2 ∨ off = 0x000#9 ∨ off = 0x004#9 ∨ off = 0x008#9 ∨ off = 0x00C#9 ∨ off = 0x010#9 ∨
      off = 0x014#9 ∨ off = 0x018#9 ∨ off = 0x01C#9 ∨ isReservedOffset off = true ∨
      off = payloadOffset (off.extractLsb' 2 6) := by
  revert off
  decide +kernel

theorem decodeBus_misaligned (d : Dir) {off : BitVec 9} (h : off.extractLsb' 0 2 ≠ 0#2) (v : Word) :
    decodeBus d off v = .error .misaligned := by
  rw [decodeBus, if_pos h]

theorem reserved_facts : ∀ off : BitVec 9, isReservedOffset off = true →
    off.extractLsb' 0 2 = 0#2 ∧ off < 0x100#9 ∧ off ≠ 0x000#9 ∧ off ≠ 0x004#9 ∧ off ≠ 0x008#9 ∧ off ≠ 0x00C#9 ∧
      off ≠ 0x010#9 ∧ off ≠ 0x014#9 ∧ off ≠ 0x018#9 ∧ off ≠ 0x01C#9 := by
  decide +kernel

theorem decodeBus_reserved (d : Dir) {off : BitVec 9} (h : isReservedOffset off = true) (v : Word) :
    decodeBus d off v = .ok (rowOf d (.rdReserved off) (.wrReserved off v)) := by
  obtain ⟨ha, hlt, h0, h1, h2, h3, h4, h5, h6, h7⟩ := reserved_facts off h
  rw [decodeBus, if_neg (by simpa using ha), if_neg h0, if_neg h1, if_neg h2, if_neg h3, if_neg h4, if_neg h5,
    if_neg h6, if_neg h7, if_pos hlt]

theorem payload_facts : ∀ k : BitVec 6, (payloadOffset k).extractLsb' 0 2 = 0#2 ∧ ¬ payloadOffset k < 0x100#9 ∧
    (payloadOffset k).extractLsb' 2 6 = k ∧ (payloadOffset k = 0x1FC#9 ↔ k = 63#6) ∧
    0x100#9 ≤ payloadOffset k := by
  decide

theorem payloadOffset_ne (k : BitVec 6) {c : BitVec 9} (hc : c < 0x100#9) : payloadOffset k ≠ c := by
  rintro rfl
  exact (payload_facts k).2.1 hc

theorem payloadOffset_inj {j k : BitVec 6} (h : payloadOffset j = payloadOffset k) : j = k := by
  rw [← (payload_facts j).2.2.1, h, (payload_facts k).2.2.1]

theorem decodeBus_payload (d : Dir) (k : BitVec 6) (v : Word) :
    decodeBus d (payloadOffset k) v = .ok (rowOf d (.rdPayload k) (.wrPayload k v)) := by
  obtain ⟨ha, hlt, hk, -⟩ := payload_facts k
  have n : ∀ {c : BitVec 9}, c < 0x100#9 → ¬ payloadOffset k = c := payloadOffset_ne k
  rw [decodeBus, if_neg (by simpa using ha), if_neg (n (by decide)), if_neg (n (by decide)), if_neg (n (by decide)),
    if_neg (n (by decide)), if_neg (n (by decide)), if_neg (n (by decide)), if_neg (n (by decide)),
    if_neg (n (by decide)), if_neg hlt, hk]

namespace Machine

variable (s : State)

/-! ### What a read shows (R220) -/

theorem registerValue_misaligned {off : BitVec 9} (h : off.extractLsb' 0 2 ≠ 0#2) : registerValue s off = none := by
  rw [registerValue, hostRegRead, decodeBus_misaligned _ h]

theorem registerValue_ctrl : registerValue s 0x000 = some 0 := rfl
theorem registerValue_ptr : registerValue s 0x004 = some s.ptr := rfl
theorem registerValue_status : registerValue s 0x008 = some s.status.word := rfl
theorem registerValue_result : registerValue s 0x00C = some (s.result.setWidth 32) := rfl
theorem registerValue_sync : registerValue s 0x010 = some (Config.sync.setWidth 32) := rfl
theorem registerValue_cmd : registerValue s 0x014 = some (s.pkt.cmd.setWidth 32) := rfl
theorem registerValue_len : registerValue s 0x018 = some (s.pkt.len.setWidth 32) := rfl
theorem registerValue_csum : registerValue s 0x01C = some (s.pkt.csum.setWidth 32) := rfl

theorem registerValue_reserved {off : BitVec 9} (h : isReservedOffset off = true) : registerValue s off = some 0 := by
  rw [registerValue, hostRegRead, decodeBus_reserved _ h]
  rfl

theorem registerValue_payload (k : BitVec 6) : registerValue s (payloadOffset k) = some (s.pkt.window k) := by
  rw [registerValue, hostRegRead, decodeBus_payload]
  rfl

/-! ### What a write does (R221) -/

theorem hostRegWrite_ptr (v : Word) : hostRegWrite s 0x004 v = .next (s.withPtr v) := rfl
theorem hostRegWrite_cmd (v : Word) :
    hostRegWrite s 0x014 v = .next (s.withPkt { s.pkt with cmd := v.extractLsb' 0 8 }) := rfl
theorem hostRegWrite_csum (v : Word) :
    hostRegWrite s 0x01C v = .next (s.withPkt { s.pkt with csum := v.extractLsb' 0 16 }) := rfl

theorem hostRegWrite_payload (k : BitVec 6) (v : Word) :
    hostRegWrite s (payloadOffset k) v = .next (s.withPkt (s.pkt.setWindow k v)) := by
  rw [hostRegWrite, decodeBus_payload]
  rfl

theorem hostRegWrite_reserved {off : BitVec 9} (h : isReservedOffset off = true) (v : Word) :
    hostRegWrite s off v = .next s := by
  rw [hostRegWrite, decodeBus_reserved _ h]
  rfl

theorem hostRegWrite_readOnly (v : Word) : hostRegWrite s 0x008 v = .next s ∧ hostRegWrite s 0x00C v = .next s ∧
    hostRegWrite s 0x010 v = .next s ∧ hostRegWrite s 0x018 v = .next s :=
  ⟨rfl, rfl, rfl, rfl⟩

end Machine

end Sys2Proof
end

