-- ==== Sys2Proof/Laws/Step.lean ====
section
/-! SUPPORT. Everything an operation and a step can do when they answer a next state. Later proofs take their cases
from here and unfold neither `exec` nor `step`. -/

namespace Sys2Proof.Machine

@[simp] theorem pkt_written (s : State) (i : Nat) (bs : List Byte) : (written s i bs).pkt = s.pkt := by
  rw [written_eq_withMem]; rfl
@[simp] theorem ptr_written (s : State) (i : Nat) (bs : List Byte) : (written s i bs).ptr = s.ptr := by
  rw [written_eq_withMem]; rfl
@[simp] theorem platform_written (s : State) (i : Nat) (bs : List Byte) :
    (written s i bs).platform = s.platform := by
  rw [written_eq_withMem]; rfl
@[simp] theorem inputs_written (s : State) (i : Nat) (bs : List Byte) : (written s i bs).inputs = s.inputs := by
  rw [written_eq_withMem]; rfl

/-- An operation that answers a next state has completed a command, or has read or written one register. -/
theorem exec_next_cases {i : Instr} {s t : State} (h : exec i s = .next t) :
    ((performed i).isCommand = true ∧ CommandDone s (performed i) t) ∨
    ((performed i).isCommand = false ∧ performed i = i ∧
      (t = s ∨ (i.isRegRead = true ∧ ∃ v, t = s.withHostData v) ∨ (∃ v, i = .wrPtr v ∧ t = s.withPtr v) ∨
        ∃ p : Packet, t = s.withPkt p ∧ p.len = s.pkt.len)) := by
  by_cases hw : ∃ w, i = .wrCtrl w
  · obtain ⟨w, rfl⟩ := hw
    exact .inl ⟨isCommand_decodeCommand w,
      commandDone_of_next (isCommand_decodeCommand w) ((exec_wrCtrl w s).symm.trans h)⟩
  · push Not at hw
    have hp : performed i = i := by cases i <;> first | rfl | exact absurd rfl (hw _)
    rw [hp]
    by_cases hc : i.isCommand = true
    · exact .inl ⟨hc, commandDone_of_next hc h⟩
    · have hc : i.isCommand = false := by simpa using hc
      obtain ⟨t', ht, hd⟩ := access_cases hc hw s
      rw [h] at ht
      cases ht
      exact .inr ⟨hc, rfl, hd⟩

/-- A register access decodes to no command word: commands are issued through CTRL only. -/
theorem isCommand_of_decodeAccess {p : Platform} {a : BusAccess} {i : Instr} (h : decodeAccess p a = .ok i) :
    i.isCommand = false := by
  unfold decodeAccess at h
  split at h
  · cases h
  · unfold decodeBus at h
    split_ifs at h
    all_goals cases h; cases a.dir <;> rfl

/-- A step that answers a next state has taken the host's first event, or there was none. -/
theorem step_next_cases {s t : State} (h : step s = .next t) :
    (s.inputs = [] ∧ t = s) ∨
    (∃ a b rest, s.inputs = .store a b :: rest ∧ t = storeByte (s.withInputs rest) a b) ∨
    (∃ a rest, s.inputs = .load a :: rest ∧
      t = (s.withInputs rest).withHostData ((hostByte s a).setWidth 32)) ∨
    (∃ rest, s.inputs = .reset :: rest ∧ t = blockReset (s.withInputs rest)) ∨
    (∃ a rest i, s.inputs = .access a :: rest ∧ decodeAccess s.platform a = .ok i ∧ i.isCommand = false ∧
      exec i (s.withInputs rest) = .next t) := by
  unfold step at h
  split at h
  · rename_i he
    cases h
    exact .inl ⟨he, rfl⟩
  · rename_i e rest he
    unfold stepEvent at h
    split at h
    · split at h
      · rename_i hd
        exact .inr (.inr (.inr (.inr ⟨_, _, _, he, hd, isCommand_of_decodeAccess hd, h⟩)))
      · cases h
    · cases h; exact .inr (.inl ⟨_, _, _, he, rfl⟩)
    · cases h; exact .inr (.inr (.inl ⟨_, _, he, rfl⟩))
    · cases h; exact .inr (.inr (.inr (.inl ⟨_, he, rfl⟩)))

/-- A command that completes leaves PTR, the platform and what the host does next as they were. -/
theorem CommandDone.kept {s t : State} {i : Instr} (h : CommandDone s i t) :
    t.ptr = s.ptr ∧ t.inputs = s.inputs ∧ t.platform = s.platform := by
  cases h <;> simp

end Sys2Proof.Machine
end

