-- ==== Sys2Proof/Tests/Slice0.lean ====
section
/-! SUPPORT. The model's own tests. Every expected value is the spec's: the encodings of R93 and R99, the vectors of
spec/95_test_vectors.md, and the rule each test names. The witnesses at the end meet the hypotheses of each obligation
that has any. The theorems are checked one after another (`Elab.async`), for their kernel evaluations take memory. -/

namespace Sys2Proof.Machine.Tests

set_option Elab.async false

/-! ### Small states -/

/-- A platform whose engine may access every host address. -/
def admitAll : Platform := ⟨0x200000#23, [⟨0x00000000#32, 0xFFFFFFFF#32, true, true⟩], .little⟩

/-- A platform whose engine may access only the host addresses below an end. -/
def admitBelow (stop : Word) : Platform := ⟨0x200000#23, [⟨0x00000000#32, stop - 1, true, true⟩], .little⟩

/-- Bytes put into host memory from an address on, by the host. -/
def put (s : State) (a : Word) : List Byte → State
  | [] => s
  | b :: bs => put (storeByte s a b) (a + 1) bs

/-- The reset state on the platform that admits everything. -/
def start : State := State.reset.withPlatform admitAll

/-- Host memory holds AA AA AA at 0x1000, where PTR points (vector 2.2). -/
def source : State := (put start 0x1000 [0xAA, 0xAA, 0xAA]).withPtr 0x1000

/-- Host memory holds the frame F of vector 2.6 at 0x3000, where PTR points. -/
def frameF : State := (put start 0x3000 [0xAA, 0x55, 0x02, 0x03, 0x01, 0x00, 0x03, 0x75, 0x4A]).withPtr 0x3000

/-- The frame F with its sync bytes swapped. -/
def swapped : State := (put start 0x3000 [0x55, 0xAA, 0x02, 0x03, 0x01, 0x00, 0x03, 0x75, 0x4A]).withPtr 0x3000

/-- The outcome is a next state with a property. -/
def nextIs (r : Result) (p : State → Bool) : Bool :=
  match r with
  | .next t => p t
  | .fault _ => false
  | .refused _ => false

/-- The outcome is a fault with a property. -/
def faultIs (r : Result) (p : Fault → Bool) : Bool :=
  match r with
  | .next _ => false
  | .fault f => p f
  | .refused _ => false

/-- The next state of an outcome that has one. -/
def after (r : Result) : State :=
  match r with
  | .next t => t
  | .fault _ => State.reset
  | .refused _ => State.reset

/-- The outcome is a next state. -/
def completes (r : Result) : Bool := nextIs r fun _ => true

theorem eq_next {r : Result} (h : completes r = true) : r = .next (after r) := by
  cases r with
  | next t => rfl
  | fault f => cases h
  | refused f => cases h

/-- The packet constructed from AA AA AA with command 0x01. -/
def built : State := after (exec (.cmdFrom 0x01 3) source)

/-- Two packets agree in every field the tests look at: command, length, checksum and the first window word. -/
def alike (p q : Packet) : Bool :=
  p.cmd == q.cmd && p.len == q.len && p.csum == q.csum && p.window 0 == q.window 0

/-- The bytes of host memory from an address on. -/
def bytesAt (s : State) (a : Word) (n : Nat) : List Byte := (List.range n).map fun i => hostByte s (ea a i)

/-! ### WellFormed refuses what no row admits -/

/-- A NEW word is no ILLEGAL word (R97). -/
theorem test_wf_legal_word_is_not_illegal : ¬ WellFormed (.cmdIllegal 0x00000001) := by decide
/-- A FROM word has no must-be-zero field (R94). -/
theorem test_wf_from_word_is_not_illegal : ¬ WellFormed (.cmdIllegal 0xFFFFFF02) := by decide
/-- 0x01C is PKT_CSUM's offset (R21). -/
theorem test_wf_named_offset_is_not_reserved : ¬ WellFormed (.rdReserved 0x01C) := by decide
/-- A reserved offset is aligned (R62). -/
theorem test_wf_misaligned_offset_is_not_reserved : ¬ WellFormed (.rdReserved 0x022) := by decide
/-- 0x100 is a PAYLOAD offset (R21). -/
theorem test_wf_payload_offset_is_not_reserved : ¬ WellFormed (.wrReserved 0x100 0) := by decide

/-! ### Decoding, from the words and offsets the spec writes out -/

/-- R93: the six commands, with operands of the vectors of 2.2, 2.3 and 2.6. -/
theorem test_decode_commands :
    decodeCommand 0b00000000000000000000000000000001 = .cmdNew ∧
    decodeCommand 0b00000000000000110000000100000010 = .cmdFrom 0x01 3 ∧
    decodeCommand 0b00000000000100000000000000000011 = .cmdWrite 16 ∧
    decodeCommand 0b00000000000000000000000000000100 = .cmdValidate ∧
    decodeCommand 0b00000000000010010000000000000101 = .cmdParse 9 ∧
    decodeCommand 0b00000000000000000000000000000110 = .cmdCalc := by decide

/-- Vector 2.7: the illegal words. -/
theorem test_decode_illegal :
    ([0x00000000, 0x00000007, 0x000000FF, 0x00000101, 0x00010001, 0x00000103, 0x00000105, 0x00010004, 0x00000106,
      0x00010006] : List Word).all (fun w => decodeCommand w == .cmdIllegal w) = true := by decide

/-- R99: reads by offset. -/
theorem test_decode_reads :
    decodeBus .read 0b000000000 0 = .ok .rdCtrl ∧ decodeBus .read 0b000000100 0 = .ok .rdPtr ∧
    decodeBus .read 0b000001000 0 = .ok .rdStatus ∧ decodeBus .read 0b000001100 0 = .ok .rdResult ∧
    decodeBus .read 0b000010000 0 = .ok .rdPktSync ∧ decodeBus .read 0b000010100 0 = .ok .rdPktCmd ∧
    decodeBus .read 0b000011000 0 = .ok .rdPktLen ∧ decodeBus .read 0b000011100 0 = .ok .rdPktCsum ∧
    decodeBus .read 0b011111100 0 = .ok (.rdReserved 0x0FC) ∧
    decodeBus .read 0b100000100 0 = .ok (.rdPayload 1) := by decide

/-- R99: writes by offset. -/
theorem test_decode_writes :
    decodeBus .write 0b000000000 7 = .ok (.wrCtrl 7) ∧ decodeBus .write 0b000000100 7 = .ok (.wrPtr 7) ∧
    decodeBus .write 0b000001000 7 = .ok (.wrStatus 7) ∧ decodeBus .write 0b000001100 7 = .ok (.wrResult 7) ∧
    decodeBus .write 0b000010000 7 = .ok (.wrPktSync 7) ∧ decodeBus .write 0b000010100 7 = .ok (.wrPktCmd 7) ∧
    decodeBus .write 0b000011000 7 = .ok (.wrPktLen 7) ∧ decodeBus .write 0b000011100 7 = .ok (.wrPktCsum 7) ∧
    decodeBus .write 0b000100000 7 = .ok (.wrReserved 0x020 7) ∧
    decodeBus .write 0b111111100 7 = .ok (.wrPayload 63 7) := by decide

/-- Vector 2.8: the host accesses R62 does not admit, each by its reason. -/
theorem test_access_not_admitted :
    decodeAccess admitAll ⟨.read, 8, 0x40000008, 0⟩ = .error .notWordWide ∧
    decodeAccess admitAll ⟨.read, 32, 0x4000000A, 0⟩ = .error .misaligned ∧
    decodeAccess admitAll ⟨.read, 32, 0x40000200, 0⟩ = .error .outsideWindow ∧
    decodeAccess admitAll ⟨.read, 32, 0x3FFFFFFC, 0⟩ = .error .outsideWindow := by decide

/-- The table's own numbering: a CW row's word and a BUS row's offset. -/
theorem test_decode_table_words :
    decodeTableWord 32 0x00000006 = some .cmdCalc ∧ decodeTableWord 8 0x02 = some (.cmdFrom 0 0) ∧
    decodeTableWord 16 0x010C = some (.rdPayload 3) := by decide

/-! ### The checksum engine (vectors 2.1) -/

theorem test_crc_step :
    crcStep 0xFFFF 0x00 = 0x40BF ∧ crcStep 0xFFFF 0xFF = 0x00FF ∧ crcStep 0x0000 0x01 = 0xC0C1 ∧
    crcStep 0x8000 0x00 = 0x0080 := by decide

/-- The catalogue value for the ASCII digits 1 to 9. -/
theorem test_crc_digits : crc16 [0x31, 0x32, 0x33, 0x34, 0x35, 0x36, 0x37, 0x38, 0x39] = 0x4B37 := by decide +kernel

theorem test_crc_of_packets :
    crc16 [0xAA, 0x55, 0x00, 0x00] = 0xEC31 ∧ crc16 [0xAA, 0x55, 0x7E, 0x04, 0xDE, 0xAD, 0xBE, 0xEF] = 0x32AF ∧
    crc16 [] = 0xFFFF := by decide +kernel

/-! ### One step of each command -/

/-- Vector 2.2: NEW over a constructed packet. -/
theorem test_new : nextIs (exec .cmdNew built) (fun t => alike t.pkt Packet.reset && t.ptr == 0x1000) = true := by
  decide +kernel

/-- Vector 2.2: FROM 0x01, 3. -/
theorem test_from : nextIs (exec (.cmdFrom 0x01 3) source) (fun t =>
    t.pkt.cmd == 0x01 && t.pkt.len == 3 && t.pkt.window 0 == 0x00AAAAAA && t.pkt.csum == 0x74FE
      && t.status.word == 0x00) = true := by decide +kernel

/-- Vector 2.2: FROM over the end of the address space. -/
theorem test_from_wraps :
    nextIs (exec (.cmdFrom 0x03 3) ((put start 0xFFFFFFFE [0x11, 0x22, 0x33]).withPtr 0xFFFFFFFE)) (fun t =>
      t.pkt.window 0 == 0x00332211 && t.pkt.csum == 0xFB51) = true := by decide +kernel

/-- Vector 2.3: WRITE 16 to 0x2000 writes nine bytes and RESULT is 9. -/
theorem test_write : nextIs (exec (.cmdWrite 16) (built.withPtr 0x2000)) (fun t =>
    bytesAt t 0x2000 10 == [0xAA, 0x55, 0x01, 0x03, 0xAA, 0xAA, 0xAA, 0xFE, 0x74, 0x00] && t.result == 9) = true := by
  decide +kernel

/-- Vector 2.3: a capacity one short writes nothing. -/
theorem test_write_too_small : nextIs (exec (.cmdWrite 8) (built.withPtr 0x2000)) (fun t =>
    t.mem == built.mem && t.status.word == 0x02 && t.result == 0) = true := by decide +kernel

/-- Vector 2.5: the constructed packet validates, and no longer after a change of its command. -/
theorem test_validate :
    nextIs (exec .cmdValidate built) (fun t => t.status.word == 0x00) = true ∧
    nextIs (exec .cmdValidate (after (exec (.wrPktCmd 0x02) built))) (fun t => t.status.word == 0x03) = true := by
  decide +kernel

/-- Vector 2.6: F loads whole, with trailing bytes beyond it. -/
theorem test_parse : nextIs (exec (.cmdParse 11) frameF) (fun t =>
    t.pkt.cmd == 0x02 && t.pkt.len == 3 && t.pkt.window 0 == 0x00030001 && t.pkt.csum == 0x4A75 && t.result == 9
      && t.status.word == 0x00) = true := by decide +kernel

/-- Vector 2.6: the errors, by what is available: 3 and 8 bytes of F, and 2 and 1 of a swapped marker. -/
theorem test_parse_errors :
    nextIs (exec (.cmdParse 3) frameF) (fun t => t.status.word == 0x14 && alike t.pkt Packet.reset) = true ∧
    nextIs (exec (.cmdParse 8) frameF) (fun t => t.status.word == 0x14 && alike t.pkt Packet.reset) = true ∧
    nextIs (exec (.cmdParse 2) swapped) (fun t => t.status.word == 0x24 && alike t.pkt Packet.reset) = true ∧
    nextIs (exec (.cmdParse 1) swapped) (fun t => t.status.word == 0x14 && alike t.pkt Packet.reset) = true := by
  decide +kernel

/-- Vector 2.4: CALC of the reset packet and of the constructed one. -/
theorem test_calc :
    nextIs (exec .cmdCalc start) (fun t => t.result == 0xEC31 && t.pkt.csum == 0x0000) = true ∧
    nextIs (exec .cmdCalc (after (exec (.wrPktCmd 0x02) built))) (fun t => t.result == 0x74BA) = true := by
  decide +kernel

/-- R97's example, through CTRL. -/
theorem test_illegal : nextIs (exec (.wrCtrl 0x00000007) built) (fun t =>
    t.status.word == 0x00000005 && t.result == 0 && alike t.pkt built.pkt) = true := by decide +kernel

/-- Vector 2.2: FROM is stuck at the first byte that is not admitted. -/
theorem test_from_stuck : faultIs (exec (.cmdFrom 0x01 3) (source.withPlatform (admitBelow 0x1001))) (fun f =>
    match f with
    | .engineStuck a .read left => a == 0x1001 && alike left.pkt Packet.reset && left.status.word == 0x00
    | _ => false) = true := by decide +kernel

/-- R141: WRITE is stuck part-way, with the bytes before written. -/
theorem test_write_stuck :
    faultIs (exec (.cmdWrite 6) ((State.reset.withPlatform (admitBelow 0x2002)).withPtr 0x2000)) (fun f =>
      match f with
      | .engineStuck a .write left => a == 0x2002 && bytesAt left 0x2000 3 == [0xAA, 0x55, 0x00]
      | _ => false) = true := by decide +kernel

/-! ### Register accesses (vectors 2.8) -/

theorem test_read_sync_ctrl_reserved :
    nextIs (exec .rdPktSync built) (fun t => t.hostData == some 0x000055AA) = true ∧
    nextIs (exec .rdCtrl built) (fun t => t.hostData == some 0) = true ∧
    nextIs (exec (.rdReserved 0x020) built) (fun t => t.hostData == some 0) = true := by decide +kernel

theorem test_read_packet :
    nextIs (exec .rdPktCmd built) (fun t => t.hostData == some 0x01) = true ∧
    nextIs (exec .rdPktLen built) (fun t => t.hostData == some 3) = true ∧
    nextIs (exec .rdPktCsum built) (fun t => t.hostData == some 0x74FE) = true ∧
    nextIs (exec (.rdPayload 0) built) (fun t => t.hostData == some 0x00AAAAAA) = true := by decide +kernel

theorem test_read_interface :
    nextIs (exec .rdPtr built) (fun t => t.hostData == some 0x1000) = true ∧
    nextIs (exec .rdStatus (after (exec (.cmdParse 2) swapped))) (fun t => t.hostData == some 0x24) = true ∧
    nextIs (exec .rdResult (after (exec .cmdCalc start))) (fun t => t.hostData == some 0xEC31) = true := by
  decide +kernel

/-- Bits above a register's field are ignored, and byte 255 of the payload does not exist. -/
theorem test_writes_take_the_defined_bits :
    nextIs (exec (.wrPktCmd 0x1234) start) (fun t => t.pkt.cmd == 0x34) = true ∧
    nextIs (exec (.wrPktCsum 0x12345678) start) (fun t => t.pkt.csum == 0x5678) = true ∧
    nextIs (exec (.wrPayload 63 0xAABBCCDD) start) (fun t => t.pkt.window 63 == 0x00BBCCDD) = true ∧
    nextIs (exec (.wrPayload 0 0xFF030001) start) (fun t => t.pkt.byte 2 == 0x03 && t.pkt.byte 4 == 0) = true ∧
    nextIs (exec (.wrPtr 0xFFFFFFFE) start) (fun t => t.ptr == 0xFFFFFFFE) = true := by decide +kernel

theorem test_ignored_writes :
    exec (.wrPktLen 5) built = .next built ∧ exec (.wrStatus 0xF) built = .next built ∧
    exec (.wrResult 1) built = .next built ∧ exec (.wrPktSync 0) built = .next built ∧
    exec (.wrReserved 0x0FC 1) built = .next built := ⟨rfl, rfl, rfl, rfl, rfl⟩

/-! ### One step of the machine -/

/-- A host access of 8 bits stops the host (vector 2.8). -/
theorem test_step_host_stuck : faultIs (step (start.withInputs [.access ⟨.read, 8, 0x40000008, 0⟩])) (fun f =>
    f == .hostStuck .notWordWide) = true := by decide +kernel

/-- A CTRL write runs its command in one step. -/
theorem test_step_runs_a_command :
    nextIs (step (source.withInputs [.access ⟨.write, 32, 0x40000000, 0x00030102⟩])) (fun t =>
      t.pkt.csum == 0x74FE && t.inputs == []) = true := by decide +kernel

/-- A placed table word runs next. -/
theorem test_step_runs_a_placed_word :
    nextIs (step (State.reset.withFetchWord 32 0x00000006)) (fun t => t.result == 0xEC31) = true := by decide +kernel

/-! ### Witnesses: states and operands that meet the hypotheses of the obligations -/

/-- The engine may access nothing. -/
def closed : State := State.reset.withPlatform (admitBelow 1)

/-- `s` with the host's next event and one after it. -/
def doing (s : State) (e : HostEvent) : State := s.withInputs [e, .load 0]

/-- A host access of the block's window, 32 bits wide. -/
def access (d : Dir) (addr v : Word) : HostEvent := .access ⟨d, 32, addr, v⟩

theorem witness_BlockResetKeepsHostMemory :
    (doing built .reset).inputs = .reset :: [.load 0] ∧ hostByte (doing built .reset) 0x1000 = 0xAA := by
  decide +kernel

/-- Each of the three clauses, at words one bit away from a legal one. -/
theorem witness_MustBeZeroFieldsAreChecked :
    let op (w : Word) : Byte := w.extractLsb' 0 8
    (op 0x00000101 = 0x01 ∧ (0x00000101#32).extractLsb' 8 8 ≠ 0#8) ∧
    (op 0x80000004 = 0x04 ∧ (0x80000004#32).extractLsb' 16 16 ≠ 0#16) ∧
    (op 0x00008006 = 0x06 ∧ (0x00008006#32).extractLsb' 8 8 ≠ 0#8) ∧
    (op 0x00000103 = 0x03 ∧ (0x00000103#32).extractLsb' 8 8 ≠ 0#8) ∧
    (op 0x00008005 = 0x05 ∧ (0x00008005#32).extractLsb' 8 8 ≠ 0#8) ∧ op 0xFFFFFF02 = 0x02 := by decide

theorem witness_RegisterAccessesDecodeByOffset :
    (0x020#9).toNat % 4 = 0 ∧ (0x0FC#9).toNat ≤ 0x0FC ∧ (0x0FC#9).toNat % 4 = 0 := by decide

theorem witness_EncodingDecodesToTheOperation :
    WellFormed (.cmdFrom 0xFF 0xFFFF) ∧ WellFormed (.cmdIllegal 0) ∧ WellFormed (.wrReserved 0x0FC 1) := by decide

theorem witness_DecodedOperationEncodesBack :
    decode (.bus .read 0x1FC 5) = .ok (.rdPayload 63) ∧ decode (.cw 0xFFFFFFFF) = .ok (.cmdIllegal 0xFFFFFFFF) := by
  decide

/-- Clause 1 at the first and the last offset; clause 2 at the first offset outside, at a misaligned one and for a
narrow access. -/
theorem witness_HostAccessAdmission :
    let off (a : BusAccess) : Nat := (a.addr - start.platform.regBase).toNat
    let ok (a : BusAccess) : Prop := a.width = 32 ∧ off a % 4 = 0 ∧ off a < 0x200
    ok ⟨.read, 32, 0x40000000, 0⟩ ∧ ok ⟨.write, 32, 0x400001FC, 0⟩ ∧ ¬ ok ⟨.read, 32, 0x40000200, 0⟩ ∧
    ¬ ok ⟨.read, 32, 0x400001FE, 0⟩ ∧ ¬ ok ⟨.write, 16, 0x40000000, 0⟩ ∧ ¬ ok ⟨.read, 32, 0x3FFFFFFC, 0⟩ := by
  decide

theorem witness_StepPerformsTheDecodedAccess :
    (doing start (access .write 0x40000004 9)).inputs = .access ⟨.write, 32, 0x40000004, 9⟩ :: [.load 0] ∧
    decodeAccess (doing start (access .write 0x40000004 9)).platform ⟨.write, 32, 0x40000004, 9⟩ = .ok (.wrPtr 9) := by
  decide

theorem witness_CtrlWritePerformsTheCommand :
    (doing start (access .write 0x40000000 6)).inputs = .access ⟨.write, 32, start.platform.regBase, 6⟩ :: [.load 0] := by
  decide

theorem witness_IssuedOperationIsPerformed :
    WellFormed (.wrPayload 63 1) ∧
    (doing start (issue start.platform (.wrPayload 63 1))).inputs
      = issue start.platform (.wrPayload 63 1) :: [.load 0] := by decide

theorem witness_PlacedTableWordIsPerformed :
    decodeTableWord 8 0x05 = some (.cmdParse 0) ∧ decodeTableWord 16 0x1FC = some (.rdPayload 63) := by decide

theorem witness_HostMacrosRunTheirOperations :
    completes (step (after (step (swapped.withProgram (hostRecv 0x3000 9))))) = true := by decide +kernel

/-- Both of the stuck cases. -/
theorem witness_OnlyTheTwoStuckCasesStop :
    (∃ f, step (doing closed (access .read 0x40000200 0)) = .fault f) ∧
    (∃ f, step (doing closed (access .write 0x40000000 0x00040005)) = .fault f) := ⟨⟨_, rfl⟩, ⟨_, rfl⟩⟩

theorem witness_LoadReturnsTheLastStore :
    (start.withInputs [.store 0xFFFFFFFF 7, .load 0xFFFFFFFF]).inputs
      = .store 0xFFFFFFFF 7 :: .load 0xFFFFFFFF :: [] := by decide

/-- A WRITE over the end of the address space; its last frame byte. -/
theorem witness_HostSeesTheWrittenFrame :
    ∃ t, exec (.cmdWrite 9) (built.withPtr 0xFFFFFFFE) = .next t ∧ t.status.err = 0 ∧
      (built.withPtr 0xFFFFFFFE).pkt.frame[8]? = some 0x74 :=
  ⟨_, eq_next (by decide +kernel), by decide +kernel, by decide +kernel⟩

/-- Both sides of the equivalence, and the operation of the second clause. -/
theorem witness_AdmittedOperationsComplete :
    RegionAdmitted source (regionUse (.cmdFrom 0x01 3) source).1 (regionUse (.cmdFrom 0x01 3) source).2 ∧
    ¬ RegionAdmitted closed (regionUse (.cmdWrite 6) closed).1 (regionUse (.cmdWrite 6) closed).2 ∧
    RegionAdmitted frameF (regionUse (decodeCommand 0x00090005) frameF).1
      (regionUse (decodeCommand 0x00090005) frameF).2 := by
  unfold RegionAdmitted
  decide +kernel

/-- A read and a write, each stuck at its second byte. -/
theorem witness_EngineStuckAtFirstNotAdmitted :
    (1 < (regionUse (.cmdParse 2) closed).2 ∧ FirstNotAdmitted closed (regionUse (.cmdParse 2) closed).1 1) ∧
    (1 < (regionUse (.wrCtrl 0x00060003) closed).2 ∧
      FirstNotAdmitted closed (regionUse (.wrCtrl 0x00060003) closed).1 1) := by
  unfold FirstNotAdmitted RegionAdmitted
  decide +kernel

theorem witness_NewPacketDoesNotValidate : ∃ t, exec .cmdNew built = .next t := ⟨_, rfl⟩

/-- The counts 255 and 256 on the two sides of the limit, 0 bytes, and a source whose last byte is not admitted. -/
theorem witness_FromMakesThePacket :
    (255 < (256#16).toNat) ∧ ((255#16).toNat ≤ 255 ∧ RegionAdmitted start .read (255#16).toNat) ∧
    ((0#16).toNat ≤ 255 ∧ RegionAdmitted closed .read (0#16).toNat) ∧
    ((2#16).toNat ≤ 255 ∧ 1 < (2#16).toNat ∧ FirstNotAdmitted closed .read 1) := by
  unfold FirstNotAdmitted RegionAdmitted
  decide +kernel

theorem witness_FrameLayout : 2 < built.pkt.len.toNat := by decide +kernel

/-- Capacities 8 and 9 for a frame of 9 bytes, and a destination whose second byte is not admitted. -/
theorem witness_WriteSendsTheFrame :
    (8#16).toNat < built.pkt.len.toNat + 6 ∧
    (built.pkt.len.toNat + 6 ≤ (9#16).toNat ∧ RegionAdmitted built .write (built.pkt.len.toNat + 6)) ∧
    (closed.pkt.len.toNat + 6 ≤ (6#16).toNat ∧ 1 < closed.pkt.len.toNat + 6 ∧ FirstNotAdmitted closed .write 1) := by
  unfold FirstNotAdmitted RegionAdmitted
  decide +kernel

theorem witness_ValidateComparesChecksums :
    let own (s : State) : Prop :=
      crc16 ([0xAA, 0x55, s.pkt.cmd, s.pkt.len] ++ (List.range s.pkt.len.toNat).map s.pkt.byte) = s.pkt.csum
    own built ∧ ¬ own start := by decide +kernel

/-- Each clause, at the counts where two clauses meet: 1 and 2, 3 and 4, 8 and 9, and the two stuck reads. -/
theorem witness_ParseLoadsTheFrame :
    (1#16).toNat < 2 ∧
    (2 ≤ (2#16).toNat ∧ RegionAdmitted swapped .read 2 ∧ regionByte swapped 0 ≠ 0xAA) ∧
    (2 ≤ (3#16).toNat ∧ (3#16).toNat < 4 ∧ RegionAdmitted frameF .read 2 ∧ regionByte frameF 0 = 0xAA ∧
      regionByte frameF 1 = 0x55) ∧
    (4 ≤ (4#16).toNat ∧ (4#16).toNat < (regionByte frameF 3).toNat + 6 ∧ RegionAdmitted frameF .read 4) ∧
    (4 ≤ (8#16).toNat ∧ (8#16).toNat < (regionByte frameF 3).toNat + 6) ∧
    ((regionByte frameF 3).toNat + 6 ≤ (9#16).toNat ∧
      RegionAdmitted frameF .read ((regionByte frameF 3).toNat + 6)) ∧
    (1 < parseReach 9 closed ∧ FirstNotAdmitted closed .read 1) := by
  unfold FirstNotAdmitted RegionAdmitted
  decide +kernel

/-- The last case of each command's row, and a register access. -/
theorem witness_OutcomesOfEveryCommand :
    ([.cmdNew, .cmdFrom 0 256, .cmdFrom 1 3, .cmdWrite 5, .cmdWrite 6, .cmdValidate, .cmdParse 0, .cmdParse 3,
      .cmdCalc, .cmdIllegal 0, .wrCtrl 6, .wrPtr 1, .rdStatus] : List Instr).all (fun i => completes (exec i source))
      = true := by decide +kernel

theorem witness_ErrorChangesOnlyStatusAndResult :
    ((performed (.wrCtrl 0)).isCommand = true ∧ ∃ t, exec (.wrCtrl 0) built = .next t ∧ t.status.err ≠ 0) ∧
    255 < (256#16).toNat ∧ (5#16).toNat < start.pkt.len.toNat + 6 :=
  ⟨⟨rfl, _, eq_next (by decide +kernel), by decide +kernel⟩, by decide, by decide⟩

/-- Two packets that differ in a byte beyond the length only. -/
def beyond : Packet := { built.pkt with payload := setPayload built.pkt.payload 3 0xFF }

theorem witness_ChecksumDomain :
    beyond.byte 3 ≠ built.pkt.byte 3 ∧ beyond.cmd = built.pkt.cmd ∧ beyond.len = built.pkt.len ∧
    ∀ i, i < built.pkt.len.toNat → beyond.byte i = built.pkt.byte i := by decide +kernel

theorem witness_FrameResidueIsZero : built.pkt.csum = built.pkt.checksum := by decide +kernel

/-- A changed command, and a changed payload byte, the last that counts. -/
theorem witness_OneCorruptedByteIsDetected :
    (∃ t, exec .cmdValidate built = .next t ∧ t.status.err = 0) ∧
    OneByteCorrupted built.pkt { built.pkt with cmd := 0x02 } ∧
    OneByteCorrupted built.pkt { built.pkt with payload := setPayload built.pkt.payload 2 0xAB } := by
  refine ⟨⟨_, eq_next (by decide +kernel), by decide +kernel⟩, ⟨rfl, rfl, .inl ⟨by decide +kernel, fun _ _ => rfl⟩⟩,
    ⟨rfl, rfl, .inr ⟨rfl, 2, ?_⟩⟩⟩
  decide +kernel

theorem witness_ConstructedPacketValidates : ∃ t, exec (.cmdFrom 0x01 3) source = .next t ∧ t.status.err = 0 :=
  ⟨_, eq_next (by decide +kernel), by decide +kernel⟩

theorem witness_ChangedChecksumIsDetected :
    ∃ t, exec (.cmdFrom 0x01 3) source = .next t ∧ t.status.err = 0 ∧
      (0x000075FE#32).extractLsb' 0 16 ≠ t.pkt.csum :=
  ⟨_, eq_next (by decide +kernel), by decide +kernel, by decide +kernel⟩

/-- From two states whose packets and PTR differ. -/
theorem witness_ConstructionIsDeterministic :
    let u : State := ((put built 0x5000 [0xAA, 0xAA, 0xAA]).withPtr 0x5000)
    (∀ i, i < (3#16).toNat → regionByte u i = regionByte source i) ∧ u.pkt ≠ source.pkt ∧
    (∃ s', exec (.cmdFrom 0x01 3) source = .next s' ∧ s'.status.err = 0) ∧
    ∃ u', exec (.cmdFrom 0x01 3) u = .next u' ∧ u'.status.err = 0 :=
  ⟨by decide +kernel, by decide +kernel, ⟨_, eq_next (by decide +kernel), by decide +kernel⟩,
    ⟨_, eq_next (by decide +kernel), by decide +kernel⟩⟩

theorem witness_ConstructedFrameIsWritten :
    ∃ t u, exec (.cmdFrom 0x01 3) source = .next t ∧ t.status.err = 0 ∧
      exec (.cmdWrite 9) (t.withPtr 0xFFFFFFFE) = .next u ∧ u.status.err = 0 :=
  ⟨built, _, eq_next (by decide +kernel), by decide +kernel, eq_next (by decide +kernel), by decide +kernel⟩

/-- WRITE, then NEW, then PARSE of just the bytes written. -/
theorem witness_ParseInvertsWrite :
    ∃ t u, exec (.cmdWrite 9) (built.withPtr 0x2000) = .next t ∧ t.status.err = 0 ∧ exec .cmdNew t = .next u ∧
      u.ptr = (built.withPtr 0x2000).ptr ∧
      (∀ i, i < built.pkt.len.toNat + 6 → hostByte u (ea 0x2000 i) = hostByte t (ea 0x2000 i)) ∧
      RegionAdmitted u .read (built.pkt.len.toNat + 6) ∧ built.pkt.len.toNat + 6 ≤ (9#16).toNat :=
  ⟨_, _, eq_next (by decide +kernel), by decide +kernel, rfl, by decide +kernel, by decide +kernel,
    by unfold RegionAdmitted; decide +kernel, by decide +kernel⟩

theorem witness_StalePacketAfterAnError :
    ∃ t, exec (.cmdParse 5) (built.withPtr 0x9000) = .next t ∧ t.status.err ≠ 0 ∧
      completes (exec (.cmdWrite 9) (built.withPtr 0x9000)) = true :=
  ⟨_, eq_next (by decide +kernel), by decide +kernel, by decide +kernel⟩

theorem witness_BytesBeyondLengthAreNotUsed : beyond.byte 3 ≠ built.pkt.byte 3 ∧ SameTransmitted built.pkt beyond :=
  ⟨by decide +kernel, rfl, rfl, rfl, by decide +kernel⟩

theorem witness_WriteChangesOnlyItsRegister :
    (0x1FC#9).toNat % 4 = 0 ∧ 0x1FC#9 ≠ 0 ∧ 0x1F8#9 ≠ 0x1FC#9 := by decide

theorem witness_RegisterReadsBackWhatWasWritten :
    (0x1FC#9).toNat % 4 = 0 ∧ 0x1FC#9 ≠ 0 ∧ registerValue built 0x014 = some 0x01 ∧
    registerValue built 0x1FC = some 0 := by decide +kernel

/-- A state no reset has: canonical memory with a byte listed, and an error recorded. -/
theorem witness_EveryStepKeepsTheInvariant :
    ∃ s t, Inv s ∧ s.mem ≠ [] ∧ s.status.err ≠ 0 ∧ step s = .next t ∧ t.result ≠ s.result :=
  ⟨doing (after (exec (.cmdParse 2) swapped)) (access .write 0x40000000 0x00000006), _,
    ⟨by decide +kernel, by decide +kernel, by decide +kernel⟩, by decide +kernel, by decide +kernel,
    eq_next (by decide +kernel), by decide +kernel⟩

theorem witness_OnlyPtrWriteChangesPtr : ∃ t, exec (.wrPtr 1) start = .next t ∧ t.ptr ≠ start.ptr :=
  ⟨_, rfl, by decide⟩

/-- By a reset and by a command. -/
theorem witness_LengthIsSetOnlyByConstruction :
    (∃ t, step (doing built .reset) = .next t ∧ t.pkt.len ≠ built.pkt.len) ∧
    ∃ t, step (doing built (access .write 0x40000000 0x00000001)) = .next t ∧ t.pkt.len ≠ built.pkt.len :=
  ⟨⟨_, eq_next (by decide +kernel), by decide +kernel⟩, ⟨_, eq_next (by decide +kernel), by decide +kernel⟩⟩

/-- By a host store and by a WRITE. -/
theorem witness_HostMemoryIsWrittenOnlyByWrite :
    (∃ t, step (doing start (.store 5 1)) = .next t ∧ hostByte t 5 ≠ hostByte start 5) ∧
    ∃ t, step (doing start (access .write 0x40000000 0x00060003)) = .next t ∧ hostByte t 1 ≠ hostByte start 1 :=
  ⟨⟨_, eq_next (by decide +kernel), by decide +kernel⟩, ⟨_, eq_next (by decide +kernel), by decide +kernel⟩⟩

theorem witness_StepTakesOneHostEvent :
    (∃ t, step (doing start (.store 5 1)) = .next t) ∧ start.inputs = [] := ⟨⟨_, rfl⟩, rfl⟩

end Sys2Proof.Machine.Tests
end

section
/-! PROOFS, family 00_scope.md: what a step that stops has met (R12, R245), and that `HOST_BUS_ENDIAN` reaches no step
(R5, R61). -/

namespace Sys2Proof

/-- The offset of an admitted access is aligned (R62 (b)). -/
theorem aligned_of_admitAccess {p : Platform} {a : BusAccess} {off : BitVec 9} (h : admitAccess p a = .ok off) :
    off.extractLsb' 0 2 = 0#2 := by
  simp only [admitAccess, ne_eq, ite_not] at h
  split_ifs at h with hwidth halign hwindow
  cases h
  rw [aligned_iff_word] at halign
  rw [aligned_iff, BitVec.toNat_setWidth]
  omega

/-- What R62 admits decodes (R99), so an access with no operation is one that R62 rejects, for the reason named. -/
theorem admitAccess_of_decodeAccess_error {p : Platform} {a : BusAccess} {why : Reject}
    (h : decodeAccess p a = .error why) : admitAccess p a = .error why := by
  unfold decodeAccess at h
  cases hadm : admitAccess p a with
  | error e => simpa [hadm] using h
  | ok off =>
    obtain ⟨i, hi⟩ := decodeBus_aligned a.dir (aligned_of_admitAccess hadm) a.data
    simp [hadm, hi] at h

namespace Machine

/-! ### The two stuck cases (R12) -/

/-- A stuck command names the byte access it is stuck at, which the platform does not admit (R66). -/
theorem CommandStuck.notAdmitted {s : State} {j : Nat} {i : Instr} {f : Fault} (h : CommandStuck s j i f) :
    ∃ addr d left, f = .engineStuck addr d left ∧ hostAdmits s.platform addr d = false := by
  cases h with
  | read _ _ _ hn => exact ⟨_, _, _, rfl, hn.2⟩
  | write _ _ _ hn => exact ⟨_, _, _, rfl, hn.2⟩

/-- A register access completes, or is a write to CTRL whose command is stuck. -/
theorem exec_access_cases {i : Instr} (hi : i.isCommand = false) (s : State) :
    (∃ t, exec i s = .next t) ∨
    ∃ w j f, i = .wrCtrl w ∧ exec i s = .fault f ∧ CommandStuck s j (decodeCommand w) f := by
  by_cases hw : ∃ w, i = .wrCtrl w
  · obtain ⟨w, rfl⟩ := hw
    rw [exec_wrCtrl]
    rcases command_cases (isCommand_decodeCommand w) s with ⟨t, ht, -⟩ | ⟨j, f, hf, hs⟩
    · exact .inl ⟨t, ht⟩
    · exact .inr ⟨w, j, f, rfl, hf, hs⟩
  · push Not at hw
    obtain ⟨t, ht, -⟩ := access_cases hi hw s
    exact .inl ⟨t, ht⟩

/-- A step answers a next state, or the host's next event is an access that is rejected, or one by which a command is
issued that is stuck. -/
theorem step_cases (s : State) :
    (∃ t, step s = .next t) ∨
    ∃ a rest, s.inputs = .access a :: rest ∧
      ((∃ why, step s = .fault (.hostStuck why) ∧ decodeAccess s.platform a = .error why) ∨
       (∃ w j f, step s = .fault f ∧ decodeAccess s.platform a = .ok (.wrCtrl w) ∧
          CommandStuck (s.withInputs rest) j (decodeCommand w) f)) := by
  cases he : s.inputs with
  | nil => exact .inl ⟨s, by simp [step, he]⟩
  | cons e rest =>
    have hstep : step s = stepEvent e (s.withInputs rest) := by simp [step, he]
    rw [hstep]
    cases e with
    | store a b => exact .inl ⟨_, rfl⟩
    | load a => exact .inl ⟨_, rfl⟩
    | reset => exact .inl ⟨_, rfl⟩
    | access a =>
      cases hd : decodeAccess s.platform a with
      | error why =>
        exact .inr ⟨a, rest, rfl, .inl ⟨why, by simp [stepEvent, hd], hd⟩⟩
      | ok i =>
        have hexec : stepEvent (.access a) (s.withInputs rest) = exec i (s.withInputs rest) := by
          simp [stepEvent, hd]
        rw [hexec]
        rcases exec_access_cases (isCommand_of_decodeAccess hd) (s.withInputs rest) with
          ht | ⟨w, j, f, rfl, hf, hs⟩
        · exact .inl ht
        · exact .inr ⟨a, rest, rfl, .inr ⟨w, j, f, hf, hd, hs⟩⟩

/-- Settles O14: of the cases of a step, only the two stuck ones are no next state. -/
theorem onlyTheTwoStuckCasesStop : Obligations.OnlyTheTwoStuckCasesStop := by
  intro s
  rcases step_cases s with ⟨t, ht⟩ | ⟨a, rest, he, ⟨why, hf, hd⟩ | ⟨w, j, f, hf, hd, hs⟩⟩
  · simp [ht]
  · refine ⟨by simp [hf], fun g hg => ⟨a, rest, he, .inl ⟨why, ?_, admitAccess_of_decodeAccess_error hd⟩⟩⟩
    exact (Host.Outcome.fault.inj (hf.symm.trans hg)).symm
  · refine ⟨by simp [hf], fun g hg => ⟨a, rest, he, .inr ?_⟩⟩
    obtain rfl : f = g := Host.Outcome.fault.inj (hf.symm.trans hg)
    obtain ⟨addr, d, left, rfl, hn⟩ := hs.notAdmitted
    exact ⟨w, addr, d, left, rfl, hd, hn⟩

/-! ### The bus's byte order (R61)

Each shared operation and each command, run with another byte order, gives what it gives without, carried through
`mapResult`; the continuations of the shared operations are compared point by point. -/

section Endian

variable (s : State) (e : Endian)

@[simp] theorem pkt_withEndian : (s.withEndian e).pkt = s.pkt := rfl
@[simp] theorem ptr_withEndian : (s.withEndian e).ptr = s.ptr := rfl
@[simp] theorem inputs_withEndian : (s.withEndian e).inputs = s.inputs := rfl
@[simp] theorem hostByte_withEndian (a : Word) : hostByte (s.withEndian e) a = hostByte s a := rfl
@[simp] theorem hostAdmits_withEndian (a : Word) (d : Dir) :
    hostAdmits (s.withEndian e).platform a d = hostAdmits s.platform a d := rfl
@[simp] theorem decodeAccess_withEndian (a : BusAccess) :
    decodeAccess (s.withEndian e).platform a = decodeAccess s.platform a := rfl

theorem withByte_withEndian (i : Nat) {k k' : Byte → Result} (hk : ∀ b, k' b = mapResult (·.withEndian e) (k b)) :
    withByte (s.withEndian e) i k' = mapResult (·.withEndian e) (withByte s i k) := by
  cases h : hostAdmits s.platform (ea s.ptr i) .read with
  | true => rw [withByte_admitted h, withByte_admitted (s := s.withEndian e) h]; exact hk _
  | false => rw [withByte_stuck h, withByte_stuck (s := s.withEndian e) h]; rfl

theorem withBytes_withEndian (i n : Nat) {k k' : List Byte → Result}
    (hk : ∀ bs, k' bs = mapResult (·.withEndian e) (k bs)) :
    withBytes (s.withEndian e) i n k' = mapResult (·.withEndian e) (withBytes s i n k) := by
  induction n generalizing i k k' with
  | zero => exact hk []
  | succ n ih => exact withByte_withEndian s e i fun b => ih (i + 1) fun bs => hk (b :: bs)

theorem writeBytes_withEndian (i : Nat) (bs : List Byte) {k k' : State → Result}
    (hk : ∀ t, k' (t.withEndian e) = mapResult (·.withEndian e) (k t)) :
    writeBytes (s.withEndian e) i bs k' = mapResult (·.withEndian e) (writeBytes s i bs k) := by
  induction bs generalizing s i with
  | nil => exact hk s
  | cons b bs ih =>
    rw [writeBytes, writeBytes, hostAdmits_withEndian, ptr_withEndian, apply_ite (mapResult _)]
    exact ite_congr rfl (fun _ => ih (storeByte s (ea s.ptr i) b) (i + 1)) fun _ => rfl

theorem execCmdFrom_withEndian (c : Byte) (n : Half) :
    execCmdFrom c n (s.withEndian e) = mapResult (·.withEndian e) (execCmdFrom c n s) := by
  rw [execCmdFrom, execCmdFrom, apply_ite (mapResult _)]
  exact ite_congr rfl (fun _ => rfl) fun _ => withBytes_withEndian s e 0 _ fun _ => rfl

theorem execCmdWrite_withEndian (cap : Half) :
    execCmdWrite cap (s.withEndian e) = mapResult (·.withEndian e) (execCmdWrite cap s) := by
  rw [execCmdWrite, execCmdWrite, pkt_withEndian, apply_ite (mapResult _)]
  exact ite_congr rfl (fun _ => rfl) fun _ => writeBytes_withEndian s e 0 _ fun _ => rfl

theorem execCmdValidate_withEndian :
    execCmdValidate (s.withEndian e) = mapResult (·.withEndian e) (execCmdValidate s) := by
  rw [execCmdValidate, execCmdValidate, pkt_withEndian, apply_ite (mapResult _)]
  rfl

theorem execCmdParse_withEndian (m : Half) :
    execCmdParse m (s.withEndian e) = mapResult (·.withEndian e) (execCmdParse m s) := by
  rw [execCmdParse, execCmdParse, apply_ite (mapResult _)]
  refine ite_congr rfl (fun _ => rfl) fun _ => ?_
  refine withByte_withEndian s e 0 fun b0 => withByte_withEndian s e 1 fun b1 => ?_
  rw [apply_ite (mapResult _), apply_ite (mapResult _)]
  refine ite_congr rfl (fun _ => rfl) fun _ => ite_congr rfl (fun _ => rfl) fun _ => ?_
  refine withByte_withEndian s e 2 fun c => withByte_withEndian s e 3 fun len => ?_
  rw [apply_ite (mapResult _)]
  refine ite_congr rfl (fun _ => rfl) fun _ => withBytes_withEndian s e 4 _ fun p => ?_
  exact withByte_withEndian s e _ fun k0 => withByte_withEndian s e _ fun k1 => rfl

/-- A write to CTRL is set apart: it is the command it issues. -/
theorem exec_withEndian_of_ne_wrCtrl {i : Instr} (hw : ∀ w, i ≠ .wrCtrl w) :
    exec i (s.withEndian e) = mapResult (·.withEndian e) (exec i s) := by
  cases i with
  | cmdFrom c n => exact execCmdFrom_withEndian s e c n
  | cmdWrite cap => exact execCmdWrite_withEndian s e cap
  | cmdValidate => exact execCmdValidate_withEndian s e
  | cmdParse m => exact execCmdParse_withEndian s e m
  | wrCtrl w => exact absurd rfl (hw w)
  | _ => rfl

/-- No operation depends on the byte order: what is performed is never a write to CTRL. -/
theorem exec_withEndian (i : Instr) : exec i (s.withEndian e) = mapResult (·.withEndian e) (exec i s) := by
  rw [← exec_performed, ← exec_performed i s]
  exact exec_withEndian_of_ne_wrCtrl s e (performed_ne_wrCtrl i)

theorem stepEvent_withEndian (ev : HostEvent) :
    stepEvent ev (s.withEndian e) = mapResult (·.withEndian e) (stepEvent ev s) := by
  cases ev with
  | access a =>
    simp only [stepEvent, decodeAccess_withEndian]
    cases decodeAccess s.platform a with
    | ok i => exact exec_withEndian s e i
    | error why => rfl
  | store a b => rfl
  | load a => rfl
  | reset => rfl

end Endian

/-- Settles O57, event by event. -/
theorem busEndiannessIsNotUsed : Obligations.BusEndiannessIsNotUsed := by
  intro s e
  unfold step
  rw [inputs_withEndian]
  cases s.inputs with
  | nil => rfl
  | cons ev rest => exact stepEvent_withEndian (s.withInputs rest) e ev

end Machine

end Sys2Proof
end

section
/-! PROOFS, family 10_state.md: what every step keeps (R30, R241), who sets PTR (R29) and PKT_LEN (R25), that payload
bytes beyond the length are not used (R26), and what a register reads back (R21, R22). -/

namespace Sys2Proof.Machine

/-! ### The invariant of a good state (R30, R241) -/

/-- The outcome a command records makes the state good where it is a legal one, whatever stood there before. -/
theorem inv_withOutcome {s : State} {st : Status} {r : Half} (hm : s.mem.wf = true) (hl : st.legal = true)
    (hr : st.err ≠ 0 → r = 0) : Inv (s.withOutcome st r) :=
  ⟨hm, hl, hr⟩

theorem inv_withOutcome_ok {s : State} (hm : s.mem.wf = true) (r : Half) : Inv (s.withOutcome Status.ok r) :=
  inv_withOutcome hm (by decide) fun h => absurd rfl h

/-- A command that completes needs only canonical memory to leave a good state: it records its own outcome. -/
theorem CommandDone.inv {s t : State} {i : Instr} (h : CommandDone s i t) (hm : s.mem.wf = true) : Inv t := by
  cases h with
  | new | fromDone | valid | parseDone | calculated => exact inv_withOutcome_ok hm _
  | writeDone => exact inv_withOutcome_ok (wf_written hm _ _) _
  | fromTooLarge | writeTooSmall | mismatch | parseTruncated | parseBadSync | illegal =>
    exact inv_withOutcome hm (by decide) fun _ => rfl

theorem exec_inv {i : Instr} {s t : State} (hs : Inv s) (h : exec i s = .next t) : Inv t := by
  rcases exec_next_cases h with ⟨-, hd⟩ | ⟨-, -, rfl | ⟨-, v, rfl⟩ | ⟨v, -, rfl⟩ | ⟨p, rfl, -⟩⟩
  · exact hd.inv hs.1
  all_goals exact hs

/-- Settles O51, event by event; a command's own cases are those of `CommandDone`. -/
theorem everyStepKeepsTheInvariant : Obligations.EveryStepKeepsTheInvariant := by
  intro s t hs h
  rcases step_next_cases h with ⟨-, rfl⟩ | ⟨a, b, rest, -, rfl⟩ | ⟨a, rest, -, rfl⟩ | ⟨rest, -, rfl⟩ |
    ⟨a, rest, i, -, -, -, hx⟩
  · exact hs
  · obtain ⟨hm, hstatus⟩ := hs
    exact ⟨wf_storeByte (s := s.withInputs rest) hm a b, hstatus⟩
  · exact hs
  · exact inv_withOutcome_ok hs.1 0
  · exact exec_inv (s := s.withInputs rest) hs hx

/-! ### Who sets PTR and PKT_LEN (R25, R29) -/

/-- Settles O53: no command writes PTR, and of the register accesses only WR PTR does. -/
theorem onlyPtrWriteChangesPtr : Obligations.OnlyPtrWriteChangesPtr := by
  intro i s t h hptr
  rcases exec_next_cases h with ⟨-, hd⟩ | ⟨-, -, rfl | ⟨-, v, rfl⟩ | ⟨v, hi, -⟩ | ⟨p, rfl, -⟩⟩
  · exact absurd hd.kept.1 hptr
  · exact absurd rfl hptr
  · exact absurd rfl hptr
  · exact ⟨v, hi⟩
  · exact absurd rfl hptr

/-- A command that completes keeps PKT_LEN, or is one of the three that construct a packet. -/
theorem CommandDone.len {s t : State} {i : Instr} (h : CommandDone s i t) :
    t.pkt.len = s.pkt.len ∨ i = .cmdNew ∨ (∃ c n, i = .cmdFrom c n) ∨ ∃ m, i = .cmdParse m := by
  cases h with
  | new => exact .inr (.inl rfl)
  | fromDone c n => exact .inr (.inr (.inl ⟨c, n, rfl⟩))
  | parseDone m => exact .inr (.inr (.inr ⟨m, rfl⟩))
  | writeDone => exact .inl (by simp)
  | fromTooLarge | writeTooSmall | valid | mismatch | parseTruncated | parseBadSync | calculated | illegal =>
    exact .inl rfl

/-- A register access that performs a command is a write to CTRL (R95). -/
theorem eq_wrCtrl_of_performed {i : Instr} (hi : i.isCommand = false) (hp : (performed i).isCommand = true) :
    ∃ w, i = .wrCtrl w := by
  cases i with
  | wrCtrl w => exact ⟨w, rfl⟩
  | _ => exact absurd hp (by simp [performed, hi])

/-- Settles O54, event by event. -/
theorem lengthIsSetOnlyByConstruction : Obligations.LengthIsSetOnlyByConstruction := by
  intro s t h hlen
  rcases step_next_cases h with ⟨-, rfl⟩ | ⟨a, b, rest, -, rfl⟩ | ⟨a, rest, -, rfl⟩ | ⟨rest, he, -⟩ |
    ⟨a, rest, i, he, hdec, hi, hx⟩
  · exact absurd rfl hlen
  · exact absurd rfl hlen
  · exact absurd rfl hlen
  · exact .inl ⟨rest, he⟩
  · rcases exec_next_cases hx with ⟨hp, hd⟩ | ⟨-, -, rfl | ⟨-, v, rfl⟩ | ⟨v, -, rfl⟩ | ⟨p, rfl, hpl⟩⟩
    · obtain ⟨w, rfl⟩ := eq_wrCtrl_of_performed hi hp
      exact .inr ⟨a, rest, w, he, hdec, hd.len.resolve_left hlen⟩
    · exact absurd rfl hlen
    · exact absurd rfl hlen
    · exact absurd rfl hlen
    · exact absurd hpl hlen

/-! ### Payload bytes at or beyond the length (R26) -/

namespace SameTransmitted

variable {p q : Packet} (h : SameTransmitted p q)
include h

theorem cmd : q.cmd = p.cmd := let ⟨hcmd, _, _, _⟩ := h; hcmd
theorem len : q.len = p.len := let ⟨_, hlen, _, _⟩ := h; hlen
theorem csum : q.csum = p.csum := let ⟨_, _, hcsum, _⟩ := h; hcsum

theorem body : q.body = p.body := by
  obtain ⟨-, hlen, -, hbytes⟩ := h
  rw [Packet.body_eq_map, Packet.body_eq_map, hlen]
  exact List.map_congr_left fun i hi => hbytes i (List.mem_range.mp hi)

theorem domain : q.domain = p.domain := by
  rw [Packet.domain_eq, Packet.domain_eq, h.cmd, h.len, h.body]

theorem checksum : q.checksum = p.checksum := congrArg crc16 h.domain

theorem frame : q.frame = p.frame := by
  rw [Packet.frame_eq, Packet.frame_eq, h.domain, h.csum]

theorem frameLen : q.frameLen = p.frameLen := by
  rw [Packet.frameLen, Packet.frameLen, h.len]

end SameTransmitted

/-- The engine's writes do not look at the packet register: with another packet the same bytes are written, and the
engine is stuck at the same one. -/
theorem writeBytes_withPkt (s : State) (q : Packet) (i : Nat) (bs : List Byte) {k k' : State → Result}
    (hk : ∀ t, k' (t.withPkt q) = mapResult (·.withPkt q) (k t)) :
    writeBytes (s.withPkt q) i bs k' = mapResult (·.withPkt q) (writeBytes s i bs k) := by
  induction bs generalizing s i with
  | nil => exact hk s
  | cons b bs ih =>
    rw [writeBytes, writeBytes, apply_ite (mapResult _)]
    exact ite_congr rfl (fun _ => ih (storeByte s (ea s.ptr i) b) (i + 1)) fun _ => rfl

/-- Settles O43: the three commands use the packet only through its checksum, its stored checksum and its frame. -/
theorem bytesBeyondLengthAreNotUsed : Obligations.BytesBeyondLengthAreNotUsed := by
  intro s q cap h
  refine ⟨?calculate, ?validate, ?write⟩
  case calculate =>
    change execCmdCalc (s.withPkt q) = mapResult _ (execCmdCalc s)
    rw [execCmdCalc, State.pkt_withPkt, h.checksum]
    rfl
  case validate =>
    change execCmdValidate (s.withPkt q) = mapResult _ (execCmdValidate s)
    rw [execCmdValidate, execCmdValidate, State.pkt_withPkt, h.checksum, h.csum, apply_ite (mapResult _)]
    rfl
  case write =>
    change execCmdWrite cap (s.withPkt q) = mapResult _ (execCmdWrite cap s)
    rw [execCmdWrite, execCmdWrite, State.pkt_withPkt, h.frame, h.frameLen, apply_ite (mapResult _)]
    exact ite_congr rfl (fun _ => rfl) fun _ => writeBytes_withPkt s q 0 _ fun _ => rfl

/-! ### What a register reads back (R21, R22) -/

/-- The low `n` bits of the word written, beside those above them of a value that has none. -/
theorem merge_low {n : Nat} (v : Word) (x : BitVec n) :
    (v &&& (BitVec.allOnes n).setWidth 32) ||| (x.setWidth 32 &&& ~~~(BitVec.allOnes n).setWidth 32) =
      (v.extractLsb' 0 n).setWidth 32 := by
  apply BitVec.eq_of_getLsbD_eq
  intro i hi
  by_cases h : i < n
  · simp [hi, h]
  · simp [hi, h, BitVec.getLsbD_of_ge x i (by omega)]

theorem extractLsb'_low_bytes (v : Word) :
    v.extractLsb' 16 8 ++ v.extractLsb' 8 8 ++ v.extractLsb' 0 8 = v.extractLsb' 0 24 := by
  rw [BitVec.extractLsb'_append_extractLsb'_eq_extractLsb' (show 16 = 8 + 8 from rfl),
    BitVec.extractLsb'_append_extractLsb'_eq_extractLsb' (show 8 = 0 + 8 from rfl)]

theorem extractLsb'_bytes (v : Word) :
    v.extractLsb' 24 8 ++ v.extractLsb' 16 8 ++ v.extractLsb' 8 8 ++ v.extractLsb' 0 8 = v := by
  rw [BitVec.extractLsb'_append_extractLsb'_eq_extractLsb' (show 24 = 16 + 8 from rfl),
    BitVec.extractLsb'_append_extractLsb'_eq_extractLsb' (show 16 = 8 + 8 from rfl),
    BitVec.extractLsb'_append_extractLsb'_eq_extractLsb' (show 8 = 0 + 8 from rfl)]
  exact BitVec.extractLsb'_eq_self

theorem zero_append_bytes (x y z : Byte) : 0#8 ++ x ++ y ++ z = (x ++ y ++ z).setWidth 32 := by
  apply BitVec.eq_of_toNat_eq
  rw [BitVec.toNat_setWidth_of_le (by decide)]
  simp only [BitVec.toNat_append]
  simp

/-- A PAYLOAD word below the last has all its four bytes, and reads what was written. -/
theorem Packet.window_setWindow {k : BitVec 6} (hk : k ≠ 63#6) (p : Packet) (v : Word) :
    (p.setWindow k v).window k = v := by
  have hlt : 4 * k.toNat + 3 < 255 := by bv_omega
  rw [Packet.window_eq_append, Packet.byte_setWindow _ _ _ hlt, Packet.byte_setWindow _ _ _ (by omega),
    Packet.byte_setWindow _ _ _ (by omega), Packet.byte_setWindow _ _ _ (by omega)]
  simpa using extractLsb'_bytes v

/-- The last PAYLOAD word has three bytes (R26): byte 255 does not exist, and bits [31:24] read 0. -/
theorem Packet.window_last (p : Packet) :
    p.window 63#6 = (p.byte 254 ++ p.byte 253 ++ p.byte 252).setWidth 32 := by
  have h255 : p.byte (4 * (63#6).toNat + 3) = 0#8 := p.byte_of_ge (by decide)
  rw [Packet.window_eq_append, h255]
  exact zero_append_bytes ..

theorem Packet.window_setWindow_last (p : Packet) (v : Word) :
    (p.setWindow 63#6 v).window 63#6 = (v.extractLsb' 0 24).setWidth 32 := by
  rw [Packet.window_last, Packet.byte_setWindow _ _ _ (by decide), Packet.byte_setWindow _ _ _ (by decide),
    Packet.byte_setWindow _ _ _ (by decide), ← extractLsb'_low_bytes]
  rfl

/-- The register at an offset takes a written word in its writable bits and keeps the others. -/
def ReadsBack (s : State) (off : BitVec 9) (v : Word) : Prop :=
  ∀ old, registerValue s off = some old → ∃ t, hostRegWrite s off v = .next t ∧
    registerValue t off = some ((v &&& writableBits off) ||| (old &&& ~~~writableBits off))

/-- A register with no writable bit, whose write is ignored, keeps its value. -/
theorem readsBack_ignored {s : State} {off : BitVec 9} {v : Word} (hm : writableBits off = 0#32)
    (hw : hostRegWrite s off v = .next s) : ReadsBack s off v :=
  fun old hold => ⟨s, hw, by
    rw [hold, hm, BitVec.and_zero, BitVec.not_zero, BitVec.and_allOnes, BitVec.zero_or]⟩

/-- A register of 32 writable bits shows the word written. -/
theorem readsBack_word {s t : State} {off : BitVec 9} {v : Word} (hm : writableBits off = BitVec.allOnes 32)
    (hw : hostRegWrite s off v = .next t) (hy : registerValue t off = some v) : ReadsBack s off v :=
  fun old _ => ⟨t, hw, by
    rw [hy, hm, BitVec.and_allOnes, BitVec.not_allOnes, BitVec.and_zero, BitVec.or_zero]⟩

/-- A register of `n` bits, all writable, shows the low `n` bits of the word written. -/
theorem readsBack_low {n : Nat} {s t : State} {off : BitVec 9} {v : Word} {x : BitVec n}
    (hm : writableBits off = (BitVec.allOnes n).setWidth 32) (hw : hostRegWrite s off v = .next t)
    (hx : registerValue s off = some (x.setWidth 32))
    (hy : registerValue t off = some ((v.extractLsb' 0 n).setWidth 32)) : ReadsBack s off v := by
  intro old hold
  obtain rfl : x.setWidth 32 = old := Option.some.inj (hx.symm.trans hold)
  exact ⟨t, hw, by rw [hm, merge_low, hy]⟩

theorem writableBits_reserved {off : BitVec 9} (h : isReservedOffset off = true) : writableBits off = 0#32 := by
  obtain ⟨-, hlt, -, hptr, -, -, -, hcmd, -, hcsum⟩ := reserved_facts off h
  have hlast : off ≠ 0x1FC#9 := by rintro rfl; exact absurd hlt (by decide)
  rw [writableBits, if_neg hptr, if_neg hcmd, if_neg hcsum, if_neg hlast, if_neg (BitVec.not_le.mpr hlt)]
  rfl

theorem writableBits_payload : ∀ k : BitVec 6, k ≠ 63#6 → writableBits (payloadOffset k) = BitVec.allOnes 32 := by
  decide

theorem readsBack_payload (s : State) (k : BitVec 6) (v : Word) : ReadsBack s (payloadOffset k) v := by
  by_cases hk : k = 63#6
  · subst hk
    exact readsBack_low (n := 24) (by decide) (hostRegWrite_payload s _ v)
      (by rw [registerValue_payload, Packet.window_last])
      (by rw [registerValue_payload, State.pkt_withPkt, Packet.window_setWindow_last])
  · exact readsBack_word (writableBits_payload k hk) (hostRegWrite_payload s k v)
      (by rw [registerValue_payload, State.pkt_withPkt, Packet.window_setWindow hk])

/-- Settles O50, offset by offset. -/
theorem registerReadsBackWhatWasWritten : Obligations.RegisterReadsBackWhatWasWritten := by
  intro off v old s halign hctrl
  suffices ReadsBack s off v from this old
  obtain ⟨hstatus, hresult, hsync, hlen⟩ := hostRegWrite_readOnly s v
  rcases offset_cases off with h | rfl | rfl | rfl | rfl | rfl | rfl | rfl | rfl | h | h
  · exact absurd ((aligned_iff off).mpr halign) h
  · exact absurd rfl hctrl
  · exact readsBack_word (by decide) (hostRegWrite_ptr s v) (registerValue_ptr _)
  · exact readsBack_ignored (by decide) hstatus
  · exact readsBack_ignored (by decide) hresult
  · exact readsBack_ignored (by decide) hsync
  · exact readsBack_low (n := 8) (by decide) (hostRegWrite_cmd s v) (registerValue_cmd s) (registerValue_cmd _)
  · exact readsBack_ignored (by decide) hlen
  · exact readsBack_low (n := 16) (by decide) (hostRegWrite_csum s v) (registerValue_csum s) (registerValue_csum _)
  · exact readsBack_ignored (writableBits_reserved h) (hostRegWrite_reserved s h v)
  · rw [h]
    exact readsBack_payload s _ v

end Sys2Proof.Machine
end

section
/-! PROOFS, family 20_memory.md: which host accesses have a step (R62), what a register write leaves alone (R63), the
operand region and who writes host memory (R64, R65), where the engine is stuck (R66), and the host's own accesses
(R67, R70). -/

namespace Sys2Proof

/-! ### Admission and what is decoded (R62, R99) -/

/-- R62's condition on a host access: its width, and the alignment and range of its offset from `REG_BASE`. -/
def HostAccessOk (p : Platform) (a : BusAccess) : Prop :=
  a.width = 32 ∧ (a.addr - p.regBase).toNat % 4 = 0 ∧ (a.addr - p.regBase).toNat < 0x200

theorem admitAccess_of_ok {p : Platform} {a : BusAccess} (h : HostAccessOk p a) :
    admitAccess p a = .ok ((a.addr - p.regBase).setWidth 9) := by
  obtain ⟨hwidth, halign, hrange⟩ := h
  have hin : ¬ 0x200#32 ≤ a.addr - p.regBase := BitVec.not_le.mpr (BitVec.lt_def.mpr hrange)
  rw [admitAccess, if_neg (not_not.mpr hwidth), if_neg (not_not.mpr ((aligned_iff_word _).mpr halign)), if_neg hin]

/-- Nothing else is admitted. -/
theorem ok_of_admitAccess {p : Platform} {a : BusAccess} {off : BitVec 9} (h : admitAccess p a = .ok off) :
    HostAccessOk p a := by
  simp only [admitAccess, ne_eq, ite_not] at h
  split_ifs at h with hwidth halign hrange
  exact ⟨hwidth, (aligned_iff_word _).mp halign, BitVec.lt_def.mp (BitVec.not_le.mp hrange)⟩

theorem wf_of_ok_rowOf {d : Dir} {rd wr i : Instr} (h : Except.ok (ε := Reject) (rowOf d rd wr) = .ok i)
    (hrd : WellFormed rd) (hwr : WellFormed wr) : WellFormed i := by
  cases h
  cases d with
  | read => exact hrd
  | write => exact hwr

/-- What an offset decodes to is well-formed: only the reserved rows have an operand that could fail to be. -/
theorem wf_of_decodeBus {d : Dir} {off : BitVec 9} {v : Word} {i : Instr} (h : decodeBus d off v = .ok i) :
    WellFormed i := by
  rcases offset_cases off with hmis | rfl | rfl | rfl | rfl | rfl | rfl | rfl | rfl | hres | hpay
  · rw [decodeBus_misaligned d hmis] at h
    cases h
  · exact wf_of_ok_rowOf h rfl rfl
  · exact wf_of_ok_rowOf h rfl rfl
  · exact wf_of_ok_rowOf h rfl rfl
  · exact wf_of_ok_rowOf h rfl rfl
  · exact wf_of_ok_rowOf h rfl rfl
  · exact wf_of_ok_rowOf h rfl rfl
  · exact wf_of_ok_rowOf h rfl rfl
  · exact wf_of_ok_rowOf h rfl rfl
  · rw [decodeBus_reserved d hres] at h
    exact wf_of_ok_rowOf h hres hres
  · rw [hpay, decodeBus_payload] at h
    exact wf_of_ok_rowOf h rfl rfl

namespace Machine

/-! ### A step, event by event -/

theorem step_of_inputs_nil {s : State} (h : s.inputs = []) : step s = .next s := by
  simp only [step, h]

theorem step_of_inputs_cons {s : State} {e : HostEvent} {rest : List HostEvent} (h : s.inputs = e :: rest) :
    step s = stepEvent e (s.withInputs rest) := by
  simp only [step, h]

theorem stepEvent_access_ok {s : State} {a : BusAccess} {i : Instr} (h : decodeAccess s.platform a = .ok i) :
    stepEvent (.access a) s = exec i s := by
  simp only [stepEvent, h]

theorem stepEvent_access_error {s : State} {a : BusAccess} {why : Reject}
    (h : decodeAccess s.platform a = .error why) : stepEvent (.access a) s = .fault (.hostStuck why) := by
  simp only [stepEvent, h]

theorem stepEvent_store (s : State) (a : Word) (b : Byte) : stepEvent (.store a b) s = .next (storeByte s a b) := rfl

theorem stepEvent_load (s : State) (a : Word) :
    stepEvent (.load a) s = .next (s.withHostData ((hostByte s a).setWidth 32)) := rfl

/-- Settles O9: R62's condition is the one under which an access is given an offset, and an aligned offset decodes. -/
theorem hostAccessAdmission : Obligations.HostAccessAdmission := by
  intro s a rest he
  rw [step_of_inputs_cons he]
  refine ⟨fun hok => ?_, fun hnot => ?_⟩
  · have hadm := admitAccess_of_ok hok
    obtain ⟨i, hi⟩ := decodeBus_aligned a.dir (aligned_of_admitAccess hadm) a.data
    refine ⟨i, wf_of_decodeBus hi, hi, stepEvent_access_ok ?_⟩
    simp only [decodeAccess, State.platform_withInputs, hadm, hi]
  · cases hadm : admitAccess s.platform a with
    | ok off => exact absurd (ok_of_admitAccess hadm) hnot
    | error why =>
      refine ⟨why, stepEvent_access_error ?_⟩
      simp only [decodeAccess, State.platform_withInputs, hadm]

/-! ### The host's own accesses (R67, R70) -/

/-- Settles O17: the byte loaded is the one at the address the step before has stored to. -/
theorem loadReturnsTheLastStore : Obligations.LoadReturnsTheLastStore := by
  intro s a b rest he
  rw [step_of_inputs_cons he, stepEvent_store]
  refine ⟨_, rfl, fun x hx => ?_, rfl, rfl, rfl, rfl, rfl, rfl, ?_⟩
  · rw [hostByte_storeByte, if_neg hx, hostByte_withInputs]
  · rw [step_of_inputs_cons (e := .load a) (rest := rest) rfl]
    rw [stepEvent_load, hostByte_withInputs, hostByte_storeByte, if_pos rfl]

/-! ### The operand region (R64) and where a command is stuck in it (R66) -/

/-- Settles O16: `ea` is the sum modulo 2^32. -/
theorem regionAddressWraps : Obligations.RegionAddressWraps :=
  toNat_ea

@[simp] theorem status_written (s : State) (i : Nat) (bs : List Byte) : (written s i bs).status = s.status := by
  rw [written_eq_withMem]; rfl
@[simp] theorem result_written (s : State) (i : Nat) (bs : List Byte) : (written s i bs).result = s.result := by
  rw [written_eq_withMem]; rfl
@[simp] theorem hostData_written (s : State) (i : Nat) (bs : List Byte) :
    (written s i bs).hostData = s.hostData := by
  rw [written_eq_withMem]; rfl

/-- A part of the frame, written, stands at the addresses of the region. -/
theorem hostByte_written_frame (s : State) {j k : Nat} (hk : k < j) (hj : j ≤ s.pkt.len.toNat + 6) :
    s.pkt.frame[k]? = some (hostByte (written s 0 (s.pkt.frame.take j)) (ea s.ptr k)) := by
  have hlen : (s.pkt.frame.take j).length = j := by simpa using hj
  have hfits := frame_fits s.pkt
  rw [Packet.length_frame] at hfits
  rw [← List.getElem?_take_of_lt hk, hostByte_written s 0 _ (by omega) k (by omega), Nat.zero_add]

/-- A part of the frame, written, changes no byte beyond it. -/
theorem hostByte_written_frame_other (s : State) {j : Nat} {x : Word} (hx : ∀ k, k < j → x ≠ ea s.ptr k) :
    hostByte (written s 0 (s.pkt.frame.take j)) x = hostByte s x := by
  refine hostByte_written_other s 0 _ x fun k hk => ?_
  rw [List.length_take] at hk
  rw [Nat.zero_add]
  exact hx k (by omega)

theorem RegionAdmitted.le_of_firstNotAdmitted {s : State} {d : Dir} {n j : Nat} (h : RegionAdmitted s d n)
    (hj : FirstNotAdmitted s d j) : n ≤ j := by
  by_contra hlt
  exact absurd (h j (by omega)) (by simp [hj.2])

theorem FirstNotAdmitted.unique {s : State} {d : Dir} {j k : Nat} (hj : FirstNotAdmitted s d j)
    (hk : FirstNotAdmitted s d k) : j = k :=
  Nat.le_antisymm (hj.1.le_of_firstNotAdmitted hk) (hk.1.le_of_firstNotAdmitted hj)

theorem regionUse_performed (i : Instr) (s : State) : regionUse (performed i) s = regionUse i s := by
  rw [regionUse, performed_idem, regionUse]

/-- Only a command accesses a byte of the region (R65). -/
theorem isCommand_of_lt_regionUse {i : Instr} {s : State} {j : Nat} (h : j < (regionUse i s).2) :
    (performed i).isCommand = true := by
  unfold regionUse at h
  generalize performed i = c at h ⊢
  cases c with
  | cmdFrom | cmdWrite | cmdParse => rfl
  | _ => exact absurd h (Nat.not_lt_zero j)

/-- An operation with a byte access that is not admitted is stuck at the first. -/
theorem commandStuck_of_firstNotAdmitted {i : Instr} {s : State} {j : Nat} (hj : j < (regionUse i s).2)
    (hn : FirstNotAdmitted s (regionUse i s).1 j) :
    ∃ f, exec i s = .fault f ∧ CommandStuck s j (performed i) f := by
  rw [← exec_performed]
  rcases command_cases (isCommand_of_lt_regionUse hj) s with ⟨t, -, -, ha⟩ | ⟨j', f, hf, hs⟩
  · rw [regionUse_performed] at ha
    exact absurd (ha.le_of_firstNotAdmitted hn) (by omega)
  · suffices j = j' by subst this; exact ⟨f, hf, hs⟩
    rw [← regionUse_performed i s] at hn
    generalize performed i = c at hs hn
    cases hs with
    | read _ hd _ hn' => rw [hd] at hn; exact hn.unique hn'
    | write cap _ _ hn' => exact FirstNotAdmitted.unique hn hn'

/-- Settles O20: a command that reads is stuck in the state it began in, and WRITE in that with part of its frame
written. -/
theorem engineStuckAtFirstNotAdmitted : Obligations.EngineStuckAtFirstNotAdmitted := by
  intro i s j hj hn
  obtain ⟨f, hf, hs⟩ := commandStuck_of_firstNotAdmitted hj hn
  rw [hf, ← regionUse_performed i s]
  generalize performed i = c at hs
  cases hs with
  | read _ hd _ _ =>
    exact ⟨s, by rw [hd], rfl, rfl, rfl, rfl, ⟨rfl, rfl, rfl⟩, fun _ _ => rfl, fun hw => by simp [hd] at hw⟩
  | write cap _ hlt _ =>
    refine ⟨_, rfl, by simp, by simp, by simp, by simp, by simp [HostSideKept], (nomatch ·),
      fun _ => ⟨fun k hk => hostByte_written_frame s hk hlt.le, fun x hx => hostByte_written_frame_other s hx⟩⟩

/-! ### Who writes host memory (R65) -/

/-- A command that completes changes a byte of host memory only as a WRITE, and only within its frame's region. -/
theorem CommandDone.hostByte_changed {s t : State} {i : Instr} (h : CommandDone s i t) {x : Word}
    (hx : hostByte t x ≠ hostByte s x) :
    ∃ cap, i = .cmdWrite cap ∧ s.pkt.len.toNat + 6 ≤ cap.toNat ∧ ∃ k, k < s.pkt.len.toNat + 6 ∧ x = ea s.ptr k := by
  cases h with
  | writeDone cap hcap =>
    refine ⟨cap, rfl, hcap, ?_⟩
    by_contra hout
    push Not at hout
    rw [hostByte_withOutcome, hostByte_written_other] at hx
    · exact hx rfl
    · simpa using hout
  | new | fromTooLarge | fromDone | writeTooSmall | valid | mismatch | parseTruncated | parseBadSync | parseDone
  | calculated | illegal => exact absurd rfl hx

/-- Settles O55, event by event. -/
theorem hostMemoryIsWrittenOnlyByWrite : Obligations.HostMemoryIsWrittenOnlyByWrite := by
  intro s t x h hx
  rcases step_next_cases h with ⟨-, rfl⟩ | ⟨a, b, rest, he, rfl⟩ | ⟨a, rest, -, rfl⟩ | ⟨rest, -, rfl⟩ |
    ⟨a, rest, i, he, hdec, hi, hexec⟩
  · exact absurd rfl hx
  · rw [hostByte_storeByte] at hx
    obtain rfl : x = a := by
      by_contra hne
      exact hx (if_neg hne)
    exact .inl ⟨b, rest, he⟩
  · exact absurd rfl hx
  · exact absurd rfl hx
  · rcases exec_next_cases hexec with ⟨hp, hd⟩ | ⟨-, -, rfl | ⟨-, v, rfl⟩ | ⟨v, -, rfl⟩ | ⟨p, rfl, -⟩⟩
    · obtain ⟨w, rfl⟩ := eq_wrCtrl_of_performed hi hp
      obtain ⟨cap, hw, hcap, hk⟩ := hd.hostByte_changed hx
      exact .inr ⟨a, rest, w, cap, he, hdec, hw, hcap, hk⟩
    all_goals exact absurd rfl hx

/-! ### One event a step (R70) -/

theorem exec_keeps_inputs_platform {i : Instr} {s t : State} (h : exec i s = .next t) :
    t.inputs = s.inputs ∧ t.platform = s.platform := by
  rcases exec_next_cases h with ⟨-, hd⟩ | ⟨-, -, rfl | ⟨-, v, rfl⟩ | ⟨v, -, rfl⟩ | ⟨p, rfl, -⟩⟩
  · exact hd.kept.2
  all_goals exact ⟨rfl, rfl⟩

/-- Settles O56, event by event. -/
theorem stepTakesOneHostEvent : Obligations.StepTakesOneHostEvent := by
  refine ⟨fun s t h => ?_, fun s => step_of_inputs_nil⟩
  rcases step_next_cases h with ⟨he, rfl⟩ | ⟨a, b, rest, he, rfl⟩ | ⟨a, rest, he, rfl⟩ | ⟨rest, he, rfl⟩ |
    ⟨a, rest, i, he, -, -, hexec⟩
  · exact ⟨by rw [he, List.tail_nil], rfl⟩
  · exact ⟨by rw [he]; rfl, rfl⟩
  · exact ⟨by rw [he]; rfl, rfl⟩
  · exact ⟨by rw [he]; rfl, rfl⟩
  · rw [he]
    exact exec_keeps_inputs_platform hexec

/-! ### What a register write leaves alone (R63, R221) -/

theorem Packet.byte_setWindow_other (p : Packet) {k : BitVec 6} (v : Word) {i : Nat} (h : i / 4 ≠ k.toNat) :
    (p.setWindow k v).byte i = p.byte i := by
  rcases Nat.lt_or_ge i 255 with hlt | hge
  · rw [Packet.byte_setWindow p k v hlt, if_neg (by omega), if_neg (by omega), if_neg (by omega), if_neg (by omega)]
  · rw [Packet.byte_of_ge _ hge, Packet.byte_of_ge _ hge]

theorem Packet.window_setWindow_other (p : Packet) {j k : BitVec 6} (v : Word) (h : j ≠ k) :
    (p.setWindow k v).window j = p.window j := by
  have hne : j.toNat ≠ k.toNat := BitVec.toNat_ne_iff_ne.mpr h
  simp only [Packet.window]
  rw [Packet.byte_setWindow_other _ _ (by omega), Packet.byte_setWindow_other _ _ (by omega),
    Packet.byte_setWindow_other _ _ (by omega), Packet.byte_setWindow_other _ _ (by omega)]

/-- What a read at an offset shows depends only on the register there. -/
theorem registerValue_congr {s t : State} {off : BitVec 9} (hptr : off = 0x004#9 → t.ptr = s.ptr)
    (hstatus : t.status = s.status) (hresult : t.result = s.result) (hcmd : off = 0x014#9 → t.pkt.cmd = s.pkt.cmd)
    (hlen : t.pkt.len = s.pkt.len) (hcsum : off = 0x01C#9 → t.pkt.csum = s.pkt.csum)
    (hwindow : ∀ k, off = payloadOffset k → t.pkt.window k = s.pkt.window k) :
    registerValue t off = registerValue s off := by
  rcases offset_cases off with hmis | rfl | rfl | rfl | rfl | rfl | rfl | rfl | rfl | hres | hpay
  · rw [registerValue_misaligned _ hmis, registerValue_misaligned _ hmis]
  · rfl
  · exact congrArg some (hptr rfl)
  · exact congrArg (some ·.word) hstatus
  · exact congrArg (some <| ·.setWidth 32) hresult
  · rfl
  · exact congrArg (some <| ·.setWidth 32) (hcmd rfl)
  · exact congrArg (some <| ·.setWidth 32) hlen
  · exact congrArg (some <| ·.setWidth 32) (hcsum rfl)
  · rw [registerValue_reserved _ hres, registerValue_reserved _ hres]
  · rw [hpay, registerValue_payload, registerValue_payload, hwindow _ hpay]

/-- Settles O49, offset by offset: four writes change one register each, and the others are ignored. -/
theorem writeChangesOnlyItsRegister : Obligations.WriteChangesOnlyItsRegister := by
  intro off off' v s halign hctrl hne
  obtain ⟨hstatus, hresult, hsync, hlen⟩ := hostRegWrite_readOnly s v
  rcases offset_cases off with h | rfl | rfl | rfl | rfl | rfl | rfl | rfl | rfl | h | h
  · exact absurd ((aligned_iff off).mpr halign) h
  · exact absurd rfl hctrl
  · exact ⟨_, hostRegWrite_ptr s v,
      registerValue_congr (fun h => absurd h hne) rfl rfl (fun _ => rfl) rfl (fun _ => rfl) fun _ _ => rfl⟩
  · exact ⟨s, hstatus, rfl⟩
  · exact ⟨s, hresult, rfl⟩
  · exact ⟨s, hsync, rfl⟩
  · exact ⟨_, hostRegWrite_cmd s v,
      registerValue_congr (fun _ => rfl) rfl rfl (fun h => absurd h hne) rfl (fun _ => rfl) fun _ _ => rfl⟩
  · exact ⟨s, hlen, rfl⟩
  · exact ⟨_, hostRegWrite_csum s v,
      registerValue_congr (fun _ => rfl) rfl rfl (fun _ => rfl) rfl (fun h => absurd h hne) fun _ _ => rfl⟩
  · exact ⟨s, hostRegWrite_reserved s h v, rfl⟩
  · rw [h] at hne ⊢
    refine ⟨_, hostRegWrite_payload s _ v,
      registerValue_congr (fun _ => rfl) rfl rfl (fun _ => rfl) rfl (fun _ => rfl) fun k hk => ?_⟩
    exact Packet.window_setWindow_other _ v fun e => hne (by rw [hk, e])

end Machine

end Sys2Proof
end

section
/-! PROOFS, family 30_encoding.md: the encoder and the decoder are inverse on the well-formed operations (R93, R96,
R99), the decoder's branches as masks (R94, R96, R97), and that an encoded operation is performed by the access that
carries it (R95, R100, R101). -/

namespace Sys2Proof

/-! ### The encoding of an operation decodes to it

Encodings are taken apart by their two forms: what encodes to a command word, and what encodes to a bus access. -/

/-- An operation encoded as a command word is the one R96's tree reads from that word. -/
theorem decodeCommand_of_encode {i : Instr} {w : Word} (hwf : WellFormed i) (he : encode i = .cw w) :
    decodeCommand w = i := by
  cases i with
  | cmdNew => cases he; rfl
  | cmdFrom c n => cases he; simp [decodeCommand, decodeCwWith]
  | cmdWrite cap => cases he; simp [decodeCommand, decodeCwWith]
  | cmdValidate => cases he; rfl
  | cmdParse m => cases he; simp [decodeCommand, decodeCwWith]
  | cmdCalc => cases he; rfl
  | cmdIllegal x => cases he; exact decodeCommand_of_isIllegalWord hwf
  | _ => cases he

/-- An operation encoded as a bus access is the one R99 reads from that access: a named register's offset is a
literal, and a command has no such encoding. -/
theorem decodeBus_of_encode {i : Instr} {d : Dir} {off : BitVec 9} {v : Word} (hwf : WellFormed i)
    (he : encode i = .bus d off v) : decodeBus d off v = .ok i := by
  cases i with
  | rdPayload k => cases he; exact decodeBus_payload .read k 0
  | wrPayload k _ => cases he; exact decodeBus_payload .write k v
  | rdReserved _ => cases he; exact decodeBus_reserved .read hwf 0
  | wrReserved _ _ => cases he; exact decodeBus_reserved .write hwf v
  | _ => cases he <;> rfl

/-- Settles O7, by the form of the encoding. -/
theorem encodingDecodesToTheOperation : Obligations.EncodingDecodesToTheOperation := by
  intro i hwf
  cases he : encode i with
  | cw w => exact congrArg Except.ok (decodeCommand_of_encode hwf he)
  | bus d off v => exact decodeBus_of_encode hwf he

/-! ### What decodes encodes back -/

theorem encode_decodeCommand (w : Word) : WellFormed (decodeCommand w) ∧ encode (decodeCommand w) = .cw w := by
  rcases decodeCommand_cases w with ⟨hd, hw⟩ | ⟨hd, hw⟩ | ⟨hd, hw⟩ | ⟨hd, hw⟩ | ⟨hd, hw⟩ | ⟨hd, hw⟩ | ⟨hd, hill⟩ <;>
    rw [hd]
  · exact ⟨rfl, congrArg Encoded.cw hw.symm⟩
  · exact ⟨rfl, congrArg Encoded.cw hw.symm⟩
  · exact ⟨rfl, congrArg Encoded.cw hw.symm⟩
  · exact ⟨rfl, congrArg Encoded.cw hw.symm⟩
  · exact ⟨rfl, congrArg Encoded.cw hw.symm⟩
  · exact ⟨rfl, congrArg Encoded.cw hw.symm⟩
  · exact ⟨hill, rfl⟩

/-- The decoder and the encoder of command words are inverse: the word decodes to the operation it encodes, and to no
other. -/
theorem decodeCommand_eq_iff {w : Word} {i : Instr} : decodeCommand w = i ↔ WellFormed i ∧ encode i = .cw w := by
  constructor
  · rintro rfl
    exact encode_decodeCommand w
  · rintro ⟨hwf, he⟩
    exact decodeCommand_of_encode hwf he

/-- An encoding as it stands on the bus: a read carries no value, so the one beside it is 0 (R99). -/
def Encoded.carried : Encoded → Encoded
  | .cw w => .cw w
  | .bus .read off _ => .bus .read off 0
  | .bus .write off v => .bus .write off v

theorem encode_of_ok_rowOf {d : Dir} {off : BitVec 9} {v : Word} {rd wr i : Instr}
    (h : Except.ok (ε := Reject) (rowOf d rd wr) = .ok i) (hrd : encode rd = .bus .read off 0)
    (hwr : encode wr = .bus .write off v) : encode i = (Encoded.bus d off v).carried := by
  cases h
  cases d with
  | read => exact hrd
  | write => exact hwr

theorem encode_of_decodeBus {d : Dir} {off : BitVec 9} {v : Word} {i : Instr} (h : decodeBus d off v = .ok i) :
    encode i = (Encoded.bus d off v).carried := by
  rcases offset_cases off with hmis | rfl | rfl | rfl | rfl | rfl | rfl | rfl | rfl | hres | hpay
  · rw [decodeBus_misaligned d hmis] at h
    cases h
  · exact encode_of_ok_rowOf h rfl rfl
  · exact encode_of_ok_rowOf h rfl rfl
  · exact encode_of_ok_rowOf h rfl rfl
  · exact encode_of_ok_rowOf h rfl rfl
  · exact encode_of_ok_rowOf h rfl rfl
  · exact encode_of_ok_rowOf h rfl rfl
  · exact encode_of_ok_rowOf h rfl rfl
  · exact encode_of_ok_rowOf h rfl rfl
  · rw [decodeBus_reserved d hres] at h
    exact encode_of_ok_rowOf h rfl rfl
  · rw [hpay, decodeBus_payload] at h
    rw [hpay]
    exact encode_of_ok_rowOf h rfl rfl

/-- Settles O8: a command word by the cases of R96's tree, an access offset by offset. -/
theorem decodedOperationEncodesBack : Obligations.DecodedOperationEncodesBack := by
  intro e i h
  cases e with
  | cw w => exact decodeCommand_eq_iff.mp (Except.ok.inj h)
  | bus d off v =>
    refine ⟨wf_of_decodeBus h, (encode_of_decodeBus h).trans ?_⟩
    cases d <;> rfl

/-! ### The decoder's branches as masks (R91, R96) -/

theorem cwWord_eq_iff {op a : Byte} {b : Half} {w : Word} :
    cwWord op a b = w ↔ cwOp w = op ∧ a = cwA w ∧ b = cwB w := by
  constructor
  · rintro rfl
    simp
  · rintro ⟨rfl, rfl, rfl⟩
    exact cwWord_fields w

theorem toNat_cwOp (w : Word) : (cwOp w).toNat = w.toNat % 0x100 := by
  simp [cwOp, BitVec.extractLsb'_toNat]

theorem toNat_cwA (w : Word) : (cwA w).toNat = w.toNat / 0x100 % 0x100 := by
  simp [cwA, BitVec.extractLsb'_toNat, Nat.shiftRight_eq_div_pow]

theorem and_lowByte_eq_iff (w : Word) (op : Byte) : w &&& 0x000000FF = op.setWidth 32 ↔ cwOp w = op := by
  have hop := op.isLt
  have hmask : w.toNat &&& 0xFF = w.toNat % 0x100 := Nat.and_two_pow_sub_one_eq_mod w.toNat 8
  simp only [← BitVec.toNat_inj, BitVec.toNat_and, BitVec.toNat_setWidth, toNat_cwOp]
  simp only [BitVec.reduceToNat, hmask]
  omega

theorem and_lowHalf_eq_iff (w : Word) (op : Byte) :
    w &&& 0x0000FFFF = op.setWidth 32 ↔ cwOp w = op ∧ cwA w = 0 := by
  have hop := op.isLt
  have hmask : w.toNat &&& 0xFFFF = w.toNat % 0x10000 := Nat.and_two_pow_sub_one_eq_mod w.toNat 16
  simp only [← BitVec.toNat_inj, BitVec.toNat_and, BitVec.toNat_setWidth, toNat_cwOp, toNat_cwA]
  simp only [BitVec.reduceToNat, hmask]
  omega

/-- FROM's row: its mask is OP alone, and A and B are its operands. -/
theorem cwWord_eq_iff_lowByte {op a : Byte} {b : Half} {w : Word} :
    cwWord op a b = w ↔ w &&& 0x000000FF = op.setWidth 32 ∧ a = cwA w ∧ b = cwB w := by
  rw [and_lowByte_eq_iff, cwWord_eq_iff]

/-- The rows whose only operand is B: their mask is OP and A. -/
theorem cwWord_zero_eq_iff_lowHalf {op : Byte} {b : Half} {w : Word} :
    cwWord op 0 b = w ↔ w &&& 0x0000FFFF = op.setWidth 32 ∧ b = cwB w := by
  rw [and_lowHalf_eq_iff, cwWord_eq_iff, and_assoc, eq_comm (a := (0 : Byte))]

/-- A word decodes to an operation that encodes to a command word exactly when it is that word. -/
theorem decodeCommand_eq_iff_word {w x : Word} {i : Instr} (hwf : WellFormed i) (he : encode i = .cw x) :
    decodeCommand w = i ↔ x = w := by
  rw [decodeCommand_eq_iff, he, Encoded.cw.injEq]
  exact and_iff_right hwf

section Rows

variable {w : Word}

theorem decodeCommand_eq_cmdNew_iff : decodeCommand w = .cmdNew ↔ w = 0x00000001 :=
  (decodeCommand_eq_iff_word rfl rfl).trans eq_comm

theorem decodeCommand_eq_cmdFrom_iff {c : Byte} {n : Half} :
    decodeCommand w = .cmdFrom c n ↔ w &&& 0x000000FF = 0x00000002 ∧ c = cwA w ∧ n = cwB w :=
  (decodeCommand_eq_iff_word rfl rfl).trans cwWord_eq_iff_lowByte

theorem decodeCommand_eq_cmdWrite_iff {cap : Half} :
    decodeCommand w = .cmdWrite cap ↔ w &&& 0x0000FFFF = 0x00000003 ∧ cap = cwB w :=
  (decodeCommand_eq_iff_word rfl rfl).trans cwWord_zero_eq_iff_lowHalf

theorem decodeCommand_eq_cmdValidate_iff : decodeCommand w = .cmdValidate ↔ w = 0x00000004 :=
  (decodeCommand_eq_iff_word rfl rfl).trans eq_comm

theorem decodeCommand_eq_cmdParse_iff {m : Half} :
    decodeCommand w = .cmdParse m ↔ w &&& 0x0000FFFF = 0x00000005 ∧ m = cwB w :=
  (decodeCommand_eq_iff_word rfl rfl).trans cwWord_zero_eq_iff_lowHalf

theorem decodeCommand_eq_cmdCalc_iff : decodeCommand w = .cmdCalc ↔ w = 0x00000006 :=
  (decodeCommand_eq_iff_word rfl rfl).trans eq_comm

/-- ILLEGAL is the rest: a word that meets another row's mask decodes to that row, and R96's tree has no other
branch. -/
theorem decodeCommand_eq_cmdIllegal_iff {x : Word} : decodeCommand w = .cmdIllegal x ↔
    x = w ∧ w ≠ 0x00000001 ∧ w &&& 0x000000FF ≠ 0x00000002 ∧ w &&& 0x0000FFFF ≠ 0x00000003 ∧
      w ≠ 0x00000004 ∧ w &&& 0x0000FFFF ≠ 0x00000005 ∧ w ≠ 0x00000006 := by
  constructor
  · intro h
    have hne : ∀ i, i ≠ .cmdIllegal x → decodeCommand w ≠ i := fun i hi e => hi (e.symm.trans h)
    obtain ⟨-, he⟩ := decodeCommand_eq_iff.mp h
    exact ⟨Encoded.cw.inj he,
      fun e => hne .cmdNew nofun (decodeCommand_eq_cmdNew_iff.mpr e),
      fun e => hne (.cmdFrom ..) nofun (decodeCommand_eq_cmdFrom_iff.mpr ⟨e, rfl, rfl⟩),
      fun e => hne (.cmdWrite _) nofun (decodeCommand_eq_cmdWrite_iff.mpr ⟨e, rfl⟩),
      fun e => hne .cmdValidate nofun (decodeCommand_eq_cmdValidate_iff.mpr e),
      fun e => hne (.cmdParse _) nofun (decodeCommand_eq_cmdParse_iff.mpr ⟨e, rfl⟩),
      fun e => hne .cmdCalc nofun (decodeCommand_eq_cmdCalc_iff.mpr e)⟩
  · rintro ⟨rfl, hnew, hfrom, hwrite, hvalidate, hparse, hcalc⟩
    rcases decodeCommand_cases x with ⟨hd, -⟩ | ⟨hd, -⟩ | ⟨hd, -⟩ | ⟨hd, -⟩ | ⟨hd, -⟩ | ⟨hd, -⟩ | ⟨hd, -⟩
    · exact absurd (decodeCommand_eq_cmdNew_iff.mp hd) hnew
    · exact absurd (decodeCommand_eq_cmdFrom_iff.mp hd).1 hfrom
    · exact absurd (decodeCommand_eq_cmdWrite_iff.mp hd).1 hwrite
    · exact absurd (decodeCommand_eq_cmdValidate_iff.mp hd) hvalidate
    · exact absurd (decodeCommand_eq_cmdParse_iff.mp hd).1 hparse
    · exact absurd (decodeCommand_eq_cmdCalc_iff.mp hd) hcalc
    · exact hd

end Rows

/-- Settles O4, row by row of the opcode table. -/
theorem decoderPartitionsCommandWords : Obligations.DecoderPartitionsCommandWords := fun _ =>
  ⟨decodeCommand_eq_cmdNew_iff, fun _ _ => decodeCommand_eq_cmdFrom_iff, fun _ => decodeCommand_eq_cmdWrite_iff,
    decodeCommand_eq_cmdValidate_iff, fun _ => decodeCommand_eq_cmdParse_iff, decodeCommand_eq_cmdCalc_iff,
    fun _ => decodeCommand_eq_cmdIllegal_iff⟩

/-! ### The must-be-zero fields and the illegal words (R94, R97) -/

/-- A word decodes to itself as ILLEGAL exactly when R97 says so of its fields. -/
theorem decodeCommand_illegal_iff (w : Word) : decodeCommand w = .cmdIllegal w ↔ isIllegalWord w = true := by
  rw [decodeCommand_eq_iff]
  exact and_iff_left rfl

/-- Settles O5: two clauses are R97's, and FROM's mask is OP alone. -/
theorem mustBeZeroFieldsAreChecked : Obligations.MustBeZeroFieldsAreChecked := by
  intro w
  simp only [decodeCommand_illegal_iff, isIllegalWord_iff]
  refine ⟨fun hop hfield => .inr (.inl ⟨hop, hfield⟩), fun hop ha => .inr (.inr ⟨hop, ha⟩), fun hop => ?_⟩
  exact decodeCommand_eq_cmdFrom_iff.mpr ⟨(and_lowByte_eq_iff w 0x02).mpr hop, rfl, rfl⟩

/-- Settles O29: the words are those of R97, and the effect is that of `raise ILLEGAL_COMMAND(0)`. -/
theorem illegalCommandIsRecorded : Obligations.IllegalCommandIsRecorded := by
  intro w s
  have hwords := (decodeCommand_illegal_iff w).trans ((isIllegalWord_iff w).trans or_assoc)
  exact ⟨hwords, rfl, rfl, rfl⟩

/-! ### Encodings and register accesses written out (R93, R99) -/

/-- Settles O3, by running the decoder. -/
theorem writtenOutEncodingsDecode : Obligations.WrittenOutEncodingsDecode := by
  unfold Obligations.WrittenOutEncodingsDecode
  decide

theorem isReservedOffset_of_toNat {off : BitVec 9} (hlo : 0x020 ≤ off.toNat) (hhi : off.toNat ≤ 0x0FC)
    (halign : off.toNat % 4 = 0) : isReservedOffset off = true := by
  simp only [isReservedOffset, Bool.and_eq_true, decide_eq_true_eq, beq_iff_eq]
  exact ⟨⟨hlo, hhi⟩, (aligned_iff off).mpr halign⟩

theorem payloadOffset_eq_ofNat : ∀ k : BitVec 6, payloadOffset k = BitVec.ofNat 9 (0x100 + 4 * k.toNat) := by
  decide

/-- Settles O6: the named offsets are literals, and the others are those of the reserved and the PAYLOAD rows. -/
theorem registerAccessesDecodeByOffset : Obligations.RegisterAccessesDecodeByOffset := by
  intro v
  refine ⟨rfl, rfl, rfl, rfl, rfl, rfl, rfl, rfl, rfl, rfl, rfl, rfl, rfl, rfl, rfl, rfl,
    fun off hlo hhi halign => ?_, fun k => ?_⟩
  · have hres := isReservedOffset_of_toNat hlo hhi halign
    exact ⟨decodeBus_reserved .read hres v, decodeBus_reserved .write hres v⟩
  · rw [← payloadOffset_eq_ofNat]
    exact ⟨decodeBus_payload .read k v, decodeBus_payload .write k v⟩

/-! ### The access that carries an encoding (R95, R99) -/

/-- A command word is carried by a write to CTRL. -/
theorem decodeAccess_cw (p : Platform) (w : Word) : decodeAccess p ((Encoded.cw w).access p) = .ok (.wrCtrl w) := by
  have hadm : admitAccess p ((Encoded.cw w).access p) = .ok 0x000 := by
    simpa [Encoded.access] using admitAccess_access p .write 0x000 w rfl
  rw [decodeAccess, hadm]
  rfl

/-- A register access is admitted at the offset it names: a misaligned one stands for no operation. -/
theorem decodeAccess_bus (p : Platform) {d : Dir} {off : BitVec 9} {v : Word} {i : Instr}
    (h : decodeBus d off v = .ok i) : decodeAccess p ((Encoded.bus d off v).access p) = .ok i := by
  have halign : off.extractLsb' 0 2 = 0#2 := by
    by_contra hmis
    rw [decodeBus_misaligned d hmis] at h
    cases h
  rw [decodeAccess, Encoded.access, admitAccess_access p d off v halign]
  exact h

namespace Machine

/-- The access that carries an encoding performs the operation the encoding stands for. -/
theorem stepEvent_access_encoded {s : State} {e : Encoded} {i : Instr} (h : decode e = .ok i) :
    stepEvent (.access (e.access s.platform)) s = exec i s := by
  cases e with
  | cw w =>
    obtain rfl : decodeCommand w = i := Except.ok.inj h
    rw [stepEvent_access_ok (decodeAccess_cw s.platform w), exec_wrCtrl]
  | bus d off v => exact stepEvent_access_ok (decodeAccess_bus s.platform h)

theorem step_of_inputs_encoded {s : State} {e : Encoded} {i : Instr} {rest : List HostEvent} (h : decode e = .ok i)
    (he : s.inputs = .access (e.access s.platform) :: rest) : step s = exec i (s.withInputs rest) := by
  rw [step_of_inputs_cons he]
  exact stepEvent_access_encoded (s := s.withInputs rest) h

/-- Settles O10. -/
theorem stepPerformsTheDecodedAccess : Obligations.StepPerformsTheDecodedAccess := by
  intro s a rest i he hd
  rw [step_of_inputs_cons he]
  exact stepEvent_access_ok hd

/-- Settles O11: the write is the access that carries the command word. -/
theorem ctrlWritePerformsTheCommand : Obligations.CtrlWritePerformsTheCommand := fun _ w _ he =>
  ⟨step_of_inputs_encoded (e := .cw w) rfl he, exec_wrCtrl w⟩

/-- Settles O12: what is issued is the encoding, which decodes to the operation. -/
theorem issuedOperationIsPerformed : Obligations.IssuedOperationIsPerformed := fun _ i _ hwf he =>
  step_of_inputs_encoded (encodingDecodesToTheOperation i hwf) he

/-! ### Table words (log entry 2) -/

theorem tableWord_of_decodeTableWord {nbits w : Nat} {i : Instr} (h : decodeTableWord nbits w = some i) :
    ∃ e, tableWord nbits w = some e ∧ decode e = .ok i := by
  unfold decodeTableWord at h
  split at h
  · cases h
  · next e he =>
    split at h
    · next hd =>
      cases h
      exact ⟨e, he, hd⟩
    · cases h

theorem withFetchWord_of_tableWord (s : State) {nbits w : Nat} {e : Encoded} (h : tableWord nbits w = some e) :
    s.withFetchWord nbits w = s.withInputs (.access (e.access s.platform) :: s.inputs) := by
  simp only [State.withFetchWord, h]

/-- Settles O13: the access placed carries the encoding the table word stands for. -/
theorem placedTableWordIsPerformed : Obligations.PlacedTableWordIsPerformed := by
  intro s nbits w i h
  obtain ⟨e, he, hd⟩ := tableWord_of_decodeTableWord h
  rw [withFetchWord_of_tableWord s he]
  exact step_of_inputs_encoded hd rfl

/-! ### Programs of the host (R101) -/

/-- The first operation of a program is performed in the state that has the rest of the program before it. -/
theorem step_withProgram_cons {i : Instr} (hwf : WellFormed i) (s : State) (is : List Instr) :
    step (s.withProgram (i :: is)) = exec i (s.withProgram is) :=
  issuedOperationIsPerformed (s.withProgram (i :: is)) i _ hwf rfl

/-- A program that begins with a write of PTR. -/
theorem step_withProgram_wrPtr (s : State) (v : Word) (is : List Instr) :
    step (s.withProgram (.wrPtr v :: is)) = .next ((s.withPtr v).withProgram is) :=
  step_withProgram_cons rfl s is

/-- The operation after one that completed: an operation leaves what the host does next as it was. -/
theorem step_after_exec_withProgram {i j : Instr} (hwf : WellFormed j) {s u : State}
    (h : exec i (s.withProgram [j]) = .next u) : step u = exec j (u.withInputs s.inputs) := by
  obtain ⟨hin, hplat⟩ := exec_keeps_inputs_platform h
  refine issuedOperationIsPerformed u j s.inputs hwf ?_
  rw [hin, hplat]
  rfl

theorem encode_pseudoFrom (c : Byte) : encode (pseudoFrom c) = .cw ((c.setWidth 32 <<< 8) ||| 0x02) := by
  simp [pseudoFrom, encode, cwWord]

/-- Settles O15: each pseudo-command writes PTR and runs on from there. -/
theorem hostMacrosRunTheirOperations : Obligations.HostMacrosRunTheirOperations := by
  intro s c src dst n cap m
  refine ⟨encode_pseudoFrom c, ⟨_, step_withProgram_wrPtr s src _, step_withProgram_cons rfl _ []⟩,
    ⟨_, step_withProgram_wrPtr s dst _, step_withProgram_cons rfl _ []⟩, _, step_withProgram_wrPtr s src _, ?_⟩
  have hparse := step_withProgram_cons (i := .cmdParse m) rfl (s.withPtr src) [.cmdValidate]
  refine ⟨hparse, fun u hu => ?_⟩
  exact step_after_exec_withProgram (s := s.withPtr src) rfl (hparse.symm.trans hu)

end Machine

end Sys2Proof
end

section
/-! PROOFS, family 40_construction.md: NEW and the packet it leaves (R121, R270), FROM and the packet it makes (R122),
and that a constructed packet validates and is fixed by the operands and the source bytes (R123). -/

namespace Sys2Proof.Machine

/-! ### What CALC and VALIDATE answer (R164, R180) -/

theorem exec_cmdCalc (s : State) : exec .cmdCalc s = .next (s.withOutcome Status.ok s.pkt.checksum) := rfl

theorem exec_cmdValidate_match {s : State} (h : s.pkt.checksum = s.pkt.csum) :
    exec .cmdValidate s = .next (s.withOutcome Status.ok 0) :=
  if_pos h

theorem exec_cmdValidate_mismatch {s : State} (h : s.pkt.checksum ≠ s.pkt.csum) :
    exec .cmdValidate s = .next (s.withOutcome ⟨3, 0⟩ 0) :=
  if_neg h

/-! ### The packet of NEW and of reset (R121, R270) -/

/-- NEW leaves the packet of reset, whatever the packet before. -/
theorem exec_cmdNew (s : State) :
    exec .cmdNew s = .next ((s.withPkt Packet.reset).withOutcome Status.ok 0) := by
  rw [← new_eq_reset]
  rfl

@[simp] theorem Packet.byte_reset (i : Nat) : Packet.reset.byte i = 0x00 := by
  rcases Nat.lt_or_ge i 255 with h | h
  · rw [Packet.byte_of_lt _ h]
    simp [Packet.reset]
  · exact Packet.byte_of_ge _ h

/-- The checksum of the header alone: the packet of reset has no meaningful payload byte. -/
theorem Packet.checksum_reset : Packet.reset.checksum = 0xEC31 := by
  have hdomain : Packet.reset.domain = [0xAA, 0x55, 0x00, 0x00] := by
    rw [Packet.domain_eq, Packet.body_eq_map]
    rfl
  rw [Packet.checksum, hdomain]
  decide +kernel

/-- D15: the stored checksum of NEW and of reset is 0x0000, which is not the packet's. -/
theorem exec_cmdValidate_reset {s : State} (h : s.pkt = Packet.reset) :
    exec .cmdValidate s = .next (s.withOutcome ⟨3, 0⟩ 0) := by
  refine exec_cmdValidate_mismatch ?_
  rw [h, Packet.checksum_reset]
  decide

@[simp] theorem Status.word_ok : Status.ok.word = 0x00000000 := by decide

/-- Settles O21: NEW's next state is written out, and holds NEW's values already. -/
theorem newClearsThePacket : Obligations.NewClearsThePacket :=
  ⟨rfl, fun s => ⟨_, exec_cmdNew s, rfl, rfl, fun i _ => Packet.byte_reset i, rfl, Status.word_ok, rfl, rfl,
    fun _ => rfl, ⟨rfl, rfl, rfl⟩, exec_cmdNew _⟩⟩

/-- Settles O22: NEW leaves the packet of reset, so both clauses are about that packet. -/
theorem newPacketDoesNotValidate : Obligations.NewPacketDoesNotValidate := by
  refine ⟨fun s t h => ?_, exec_cmdValidate_reset rfl⟩
  rw [exec_cmdNew] at h
  cases h
  refine ⟨?_, exec_cmdValidate_reset rfl⟩
  rw [exec_cmdCalc, State.pkt_withOutcome, State.pkt_withPkt, Packet.checksum_reset]
  rfl

/-! ### The packet FROM makes (R122) -/

theorem toNat_lo8_of_le {n : Half} (h : n.toNat ≤ 255) : (lo8 n).toNat = n.toNat := by
  rw [lo8, BitVec.extractLsb'_toNat, Nat.shiftRight_zero]
  omega

/-- The source bytes FROM reads, in the order of the region (R65). -/
theorem regionBytes_zero_eq_map (s : State) (n : Nat) : regionBytes s 0 n = (List.range n).map (regionByte s) := by
  simp only [regionBytes_eq_map, Nat.zero_add]
  rfl

theorem byte_construct (c : Byte) (n : Half) (bs : List Byte) {i : Nat} (h : i < 255) :
    (construct c n bs).byte i = bs.getD i 0x00 :=
  Packet.byte_fillPayload _ _ _ _ h

theorem getD_regionBytes_zero (s : State) (n i : Nat) :
    (regionBytes s 0 n).getD i 0x00 = if i < n then regionByte s i else 0x00 := by
  rw [regionBytes_zero_eq_map]
  split
  · next h => simp [h]
  · next h => simp [h]

section Construct

variable (c : Byte) {n : Half} {bs : List Byte} (hn : n.toNat ≤ 255) (hbs : bs.length = n.toNat)
include hn hbs

/-- The meaningful payload is the source, for the length byte holds its count. -/
theorem body_construct : (construct c n bs).body = bs := by
  have hlen : (construct c n bs).len.toNat = bs.length := (toNat_lo8_of_le hn).trans hbs.symm
  rw [Packet.body_eq_map, hlen]
  refine List.ext_getElem (by simp) fun i _ hi => ?_
  rw [List.getElem_map, List.getElem_range, byte_construct c n bs (by omega), List.getD_eq_getElem _ _ hi]

/-- What FROM stores as the checksum is the checksum of the packet it makes. -/
theorem csum_construct : (construct c n bs).csum = (construct c n bs).checksum := by
  rw [Packet.checksum, Packet.domain_eq, body_construct c hn hbs]
  rfl

end Construct

/-- FROM that ended with ERR = 0 has made its packet of the source bytes: the other way for it to complete is
PAYLOAD_TOO_LARGE. -/
theorem eq_of_exec_cmdFrom_ok {c : Byte} {n : Half} {s t : State} (h : exec (.cmdFrom c n) s = .next t)
    (hok : t.status.err = 0) :
    n.toNat ≤ 255 ∧ t = (s.withPkt (construct c n (regionBytes s 0 n.toNat))).withOutcome Status.ok 0 := by
  cases commandDone_of_next rfl h with
  | fromTooLarge => cases hok
  | fromDone _ _ hn => exact ⟨hn, rfl⟩

/-- Settles O23: the three ways FROM can end, and the packet it makes field by field. -/
theorem fromMakesThePacket : Obligations.FromMakesThePacket := by
  intro c n s
  refine ⟨rfl, fun h => execCmdFrom_tooLarge c h s, fun hn ha => ?_, fun hn j hj hs => execCmdFrom_stuck c hn hj hs⟩
  have hcsum := csum_construct c hn (length_regionBytes s 0 n.toNat)
  refine ⟨_, execCmdFrom_done c hn ha, rfl, rfl, fun i hi => ?_, ?_, hcsum, Status.word_ok, rfl, rfl,
    fun _ => rfl, rfl, rfl, rfl⟩
  · exact (byte_construct c n _ hi).trans (getD_regionBytes_zero s n.toNat i)
  · rw [← regionBytes_zero_eq_map]
    rfl

/-! ### What construction ensures (R123) -/

/-- Settles O37: the stored checksum is the packet's. -/
theorem constructedPacketValidates : Obligations.ConstructedPacketValidates := by
  intro c n s t h hok
  obtain ⟨hn, ht⟩ := eq_of_exec_cmdFrom_ok h hok
  have hcsum : t.pkt.csum = t.pkt.checksum := by
    rw [ht]
    exact csum_construct c hn (length_regionBytes s 0 n.toNat)
  exact ⟨exec_cmdValidate_match hcsum.symm, by rw [exec_cmdCalc, hcsum]; rfl⟩

/-- Settles O39: the packet is a function of the operands and the source bytes. -/
theorem constructionIsDeterministic : Obligations.ConstructionIsDeterministic := by
  intro c n s u s' u' hsrc hs hsok hu huok
  obtain ⟨-, rfl⟩ := eq_of_exec_cmdFrom_ok hs hsok
  obtain ⟨-, rfl⟩ := eq_of_exec_cmdFrom_ok hu huok
  have hbytes : regionBytes u 0 n.toNat = regionBytes s 0 n.toNat := by
    rw [regionBytes_zero_eq_map, regionBytes_zero_eq_map]
    exact List.map_congr_left fun i hi => hsrc i (List.mem_range.mp hi)
  rw [State.pkt_withOutcome, State.pkt_withPkt, hbytes]
  rfl

end Sys2Proof.Machine
end

section
/-! PROOFS, family 41_serialization.md: the frame byte by byte (R140), WRITE and the bytes it leaves in host memory
(R141), and FROM then WRITE (R142). -/

namespace Sys2Proof.Machine

/-! ### The frame, byte by byte (R140) -/

/-- The frame as its header, its payload and its trailer. -/
theorem Packet.frame_eq_parts (p : Packet) :
    p.frame = [0xAA, 0x55, p.cmd, p.len] ++ (p.body ++ bytesLe16 p.csum) := by
  rw [Packet.frame_eq, Packet.domain_eq, List.append_assoc]

/-- Below index 4 the frame is its header. -/
theorem Packet.frame_header (p : Packet) {i : Nat} (h : i < 4) :
    p.frame[i]? = [0xAA, 0x55, p.cmd, p.len][i]? := by
  rw [Packet.frame_eq_parts]
  exact List.getElem?_append_left h

theorem Packet.frame_payload (p : Packet) {i : Nat} (h : i < p.len.toNat) : p.frame[4 + i]? = some (p.byte i) := by
  have hbody : p.body[i]? = some (p.byte i) := by
    rw [Packet.body_eq_map]
    simp [h]
  rw [Packet.frame_eq_parts, List.getElem?_append_right (by simp)]
  simpa [List.getElem?_append_left, h] using hbody

/-- From index `4 + len` on the frame is its trailer. -/
theorem Packet.frame_trailer (p : Packet) (i : Nat) :
    p.frame[4 + p.len.toNat + i]? = (bytesLe16 p.csum)[i]? := by
  rw [Packet.frame_eq, List.getElem?_append_right (by simp)]
  simp

theorem Packet.frame_csum_lo (p : Packet) : p.frame[4 + p.len.toNat]? = some (lo8 p.csum) :=
  p.frame_trailer 0

theorem Packet.frame_csum_hi (p : Packet) : p.frame[5 + p.len.toNat]? = some (hi8 p.csum) := by
  rw [show 5 + p.len.toNat = 4 + p.len.toNat + 1 by omega]
  exact p.frame_trailer 1

/-- Settles O24: the frame is its header, its payload and its trailer. -/
theorem frameLayout : Obligations.FrameLayout := fun p =>
  ⟨p.length_frame, p.frame_header (by decide), p.frame_header (by decide), p.frame_header (by decide),
    p.frame_header (by decide), fun _ hi => p.frame_payload hi, p.frame_csum_lo, p.frame_csum_hi⟩

/-! ### WRITE (R141) -/

theorem Packet.take_frame (p : Packet) : p.frame.take (p.len.toNat + 6) = p.frame :=
  List.take_of_length_le p.length_frame.le

/-- Settles O25: the three ways WRITE can end; the whole frame is a part of itself, so what is said of the bytes
before a stuck one holds of all. -/
theorem writeSendsTheFrame : Obligations.WriteSendsTheFrame := by
  intro cap s
  refine ⟨by simp [encode, cwWord], execCmdWrite_tooSmall, fun hcap ha => ?_, fun hcap j hj hs => ?_⟩
  · refine ⟨_, execCmdWrite_done hcap ha, fun i hi => ?_, fun x hx => ?_, Status.word_ok, s.pkt.toNat_frameLen,
      by simp, by simp, by simp [HostSideKept]⟩
    · simpa only [Packet.take_frame, hostByte_withOutcome] using hostByte_written_frame s hi le_rfl
    · simpa only [Packet.take_frame, hostByte_withOutcome] using hostByte_written_frame_other s hx
  · refine ⟨(written s 0 (s.pkt.frame.take j)).mem, ?_⟩
    rw [← written_eq_withMem]
    exact ⟨execCmdWrite_stuck hcap hj hs, fun k hk => hostByte_written_frame s hk hj.le,
      fun x hx => hostByte_written_frame_other s hx⟩

/-! ### FROM then WRITE (R142) -/

/-- WRITE that ended with ERR = 0 has written the frame: the other way for it to complete is BUFFER_TOO_SMALL. -/
theorem eq_of_exec_cmdWrite_ok {cap : Half} {s t : State} (h : exec (.cmdWrite cap) s = .next t)
    (hok : t.status.err = 0) : t = (written s 0 s.pkt.frame).withOutcome Status.ok s.pkt.frameLen := by
  cases commandDone_of_next rfl h with
  | writeTooSmall => cases hok
  | writeDone => rfl

/-- After a successful WRITE, byte `k` of the frame stands at PTR + `k`. -/
theorem hostByte_of_exec_cmdWrite_ok {cap : Half} {s t : State} (h : exec (.cmdWrite cap) s = .next t)
    (hok : t.status.err = 0) {k : Nat} {b : Byte} (hb : s.pkt.frame[k]? = some b) : hostByte t (ea s.ptr k) = b := by
  obtain ⟨hk, -⟩ := List.getElem?_eq_some_iff.mp hb
  have hw := hostByte_written s 0 _ (frame_fits s.pkt) k hk
  rw [hb, Nat.zero_add] at hw
  rw [eq_of_exec_cmdWrite_ok h hok]
  exact (Option.some.inj hw).symm

/-- Settles O40: the packet written is the one FROM made, whose length byte holds the count. -/
theorem constructedFrameIsWritten : Obligations.ConstructedFrameIsWritten := by
  intro c n cap dst s t u hfrom htok hwrite huok
  obtain ⟨hn, ht⟩ := eq_of_exec_cmdFrom_ok hfrom htok
  have hpkt : t.pkt = construct c n (regionBytes s 0 n.toNat) := by rw [ht]; rfl
  have hlen : t.pkt.len.toNat = n.toNat := by rw [hpkt]; exact toNat_lo8_of_le hn
  have hdst {k : Nat} {b : Byte} (hb : t.pkt.frame[k]? = some b) : hostByte u (ea dst k) = b :=
    hostByte_of_exec_cmdWrite_ok hwrite huok hb
  refine ⟨hdst (t.pkt.frame_header (by decide)), hdst (t.pkt.frame_header (by decide)), ?_,
    ?_, fun i hi => ?_, ?_, ?_⟩
  · rw [hdst (t.pkt.frame_header (i := 2) (by decide)), hpkt]
    rfl
  · rw [hdst (t.pkt.frame_header (i := 3) (by decide))]
    exact hlen
  · rw [hdst (t.pkt.frame_payload (hlen ▸ hi)), hpkt, byte_construct c n _ (by omega), getD_regionBytes_zero, if_pos hi]
  · rw [← hlen, hdst t.pkt.frame_csum_hi, hdst t.pkt.frame_csum_lo, ← joinLe16_eq_append, joinLe16_lo8_hi8, hlen, hpkt,
      ← regionBytes_zero_eq_map]
    rfl
  · rw [eq_of_exec_cmdWrite_ok hwrite huok, ← hlen]
    exact t.pkt.toNat_frameLen

end Sys2Proof.Machine
end

section
/-! PROOFS, family 42_checksum.md: the byte step and its linearity (R162), the checksum domain and the checksum over it
(R160, R163), CALC (R164), the worked example (R165), and the residue of a consistent frame (R166). -/

namespace Sys2Proof.Machine

/-! ### One byte step (R162) -/

/-- R162: the shift, then the polynomial when the bit shifted out is 1. -/
theorem crcShift_eq_xor (r : Half) :
    crcShift r = r >>> 1 ^^^ (if r.getLsbD 0 then Config.crcPoly else 0) := by
  unfold crcShift
  split
  · rfl
  · exact BitVec.xor_zero.symm

/-- What the shift adds is linear in the bit shifted out: the polynomial taken twice vanishes. -/
theorem crcPoly_if_xor (x y : Bool) :
    (if (x ^^ y) then Config.crcPoly else 0) =
      (if x then Config.crcPoly else 0) ^^^ (if y then Config.crcPoly else 0) := by
  cases x <;> cases y <;> decide

theorem crcShift_xor (r r' : Half) : crcShift (r ^^^ r') = crcShift r ^^^ crcShift r' := by
  simp only [crcShift_eq_xor, BitVec.ushiftRight_xor_distrib, BitVec.getLsbD_xor, crcPoly_if_xor]
  ac_rfl

theorem repeat_crcShift_xor (n : Nat) (r r' : Half) :
    Nat.repeat crcShift n (r ^^^ r') = Nat.repeat crcShift n r ^^^ Nat.repeat crcShift n r' := by
  induction n with
  | zero => rfl
  | succ n ih => exact (congrArg crcShift ih).trans (crcShift_xor _ _)

/-- Settles O34: the shifts are linear, and the byte enters the register by an XOR. -/
theorem byteStepIsLinear : Obligations.ByteStepIsLinear := by
  intro r r' b b'
  have hentry : (r ^^^ r') ^^^ (b ^^^ b').setWidth 16 = (r ^^^ b.setWidth 16) ^^^ (r' ^^^ b'.setWidth 16) := by
    rw [BitVec.setWidth_xor]
    ac_rfl
  rw [crcStep, hentry]
  exact repeat_crcShift_xor 8 _ _

/-- While the bits shifted out are 0, the loop only shifts. -/
theorem repeat_crcShift_of_low_zero {n : Nat} {r : Half} (h : ∀ i, i < n → r.getLsbD i = false) :
    Nat.repeat crcShift n r = r >>> n := by
  induction n with
  | zero => exact (BitVec.ushiftRight_zero r).symm
  | succ n ih =>
    have hbit : ¬ (r >>> n).getLsbD 0 = true := by simp [h n n.lt_succ_self]
    calc crcShift (Nat.repeat crcShift n r)
      _ = crcShift (r >>> n) := congrArg crcShift (ih fun i hi => h i (Nat.lt_succ_of_lt hi))
      _ = r >>> n >>> 1 := if_neg hbit
      _ = r >>> (n + 1) := (BitVec.shiftRight_add r n 1).symm

/-- A byte step that takes in the register's own low byte leaves its high byte. -/
theorem crcStep_lo8 (r : Half) : crcStep r (lo8 r) = (hi8 r).setWidth 16 := by
  have hlow (i : Nat) (hi : i < 8) : (r ^^^ (lo8 r).setWidth 16).getLsbD i = false := by
    simp [lo8, hi, show i < 16 by omega]
  rw [crcStep, repeat_crcShift_of_low_zero hlow]
  apply BitVec.eq_of_getLsbD_eq
  intro i hi
  have hwidth (h : r.getLsbD (8 + i) = true) : i < 8 := by have := BitVec.lt_of_getLsbD h; omega
  simpa [hi8, hi] using hwidth

/-- A byte step that takes in the whole register, one byte wide, leaves 0. -/
theorem crcStep_setWidth_self (b : Byte) : crcStep (b.setWidth 16) b = 0 := by
  rw [crcStep, BitVec.xor_self, repeat_crcShift_of_low_zero fun _ _ => BitVec.getLsbD_zero]
  exact BitVec.zero_ushiftRight

/-- A register fed its own two bytes, low byte first, ends at 0. -/
theorem foldl_crcStep_bytesLe16 (r : Half) : (bytesLe16 r).foldl crcStep r = 0 := by
  rw [bytesLe16, List.foldl_cons, crcStep_lo8, List.foldl_cons, crcStep_setWidth_self, List.foldl_nil]

/-! ### The checksum and its domain (R160, R161, R163) -/

/-- R161: there is no final XOR. -/
theorem crc16_eq_foldl (bs : List Byte) : crc16 bs = bs.foldl crcStep Config.crcInit := BitVec.xor_zero

theorem crc16_append (bs cs : List Byte) : crc16 (bs ++ cs) = cs.foldl crcStep (crc16 bs) := by
  rw [crc16_eq_foldl, List.foldl_append, ← crc16_eq_foldl]

theorem Packet.domain_eq_map (p : Packet) :
    p.domain = [0xAA, 0x55, p.cmd, p.len] ++ (List.range p.len.toNat).map p.byte := by
  rw [Packet.domain_eq, Packet.body_eq_map]

/-- Settles O32: the checksum does not look at the stored checksum, so the packets may be taken to agree there too. -/
theorem checksumDomain : Obligations.ChecksumDomain := fun p =>
  ⟨p.domain_eq_map, p.length_domain, rfl, fun q hcmd hlen hbytes =>
    SameTransmitted.checksum (q := { q with csum := p.csum }) ⟨hcmd, hlen, rfl, hbytes⟩⟩

/-- Settles O27: CALC answers the checksum, which is the CRC over the domain. -/
theorem calcReadsOutTheChecksum : Obligations.CalcReadsOutTheChecksum := by
  refine ⟨rfl, fun s => ?_⟩
  rw [exec_cmdCalc, Packet.checksum, Packet.domain_eq_map]
  rfl

/-! ### The residue of a frame (R166) -/

/-- Settles O35: the trailer feeds the register, which holds the checksum then, its own two bytes. -/
theorem frameResidueIsZero : Obligations.FrameResidueIsZero := by
  intro p
  refine ⟨?_, fun h => ?_⟩
  · rw [Packet.frame_eq, ← p.length_domain, List.take_left]
  · rw [Packet.frame_eq, crc16_append, h]
    exact foldl_crcStep_bytesLe16 p.checksum

/-! ### The worked checksum (R165) -/

/-- Settles O33: the checksum is the last of the seven registers, each computed by one byte step. -/
theorem workedChecksum : Obligations.WorkedChecksum := by
  unfold Obligations.WorkedChecksum
  have h1 : crcStep 0xFFFF 0xAA = 0x3F3F := by decide
  have h2 : crcStep 0x3F3F 0x55 = 0x2FBF := by decide
  have h3 : crcStep 0x2FBF 0x01 = 0x70AF := by decide
  have h4 : crcStep 0x70AF 0x03 = 0x7D70 := by decide
  have h5 : crcStep 0x7D70 0xAA = 0x9BFC := by decide
  have h6 : crcStep 0x9BFC 0xAA = 0x3E1B := by decide
  have h7 : crcStep 0x3E1B 0xAA = 0x74FE := by decide
  refine ⟨h1, h2, h3, h4, h5, h6, h7, ?_⟩
  rw [crc16_eq_foldl]
  change List.foldl crcStep 0xFFFF _ = _
  simp only [List.foldl_cons, List.foldl_nil, h1, h2, h3, h4, h5, h6, h7]

end Sys2Proof.Machine
end

section
/-! PROOFS, family 43_validation.md: what VALIDATE compares (R180), that every changed stored checksum of a constructed
packet is found (R181), and that the loop of R162, one-to-one in the register and in the byte, finds every changed byte
of the command or payload. -/

namespace Sys2Proof.Machine

/-! ### What VALIDATE compares (R180) -/

/-- Settles O26: the recomputed checksum is the CRC over the domain. -/
theorem validateComparesChecksums : Obligations.ValidateComparesChecksums := by
  refine ⟨rfl, fun s => ?_⟩
  rw [← Packet.domain_eq_map]
  exact ⟨exec_cmdValidate_match, exec_cmdValidate_mismatch⟩

theorem checksum_eq_csum_of_validate_ok {s t : State} (h : exec .cmdValidate s = .next t) (hok : t.status.err = 0) :
    s.pkt.checksum = s.pkt.csum := by
  cases commandDone_of_next rfl h with
  | valid heq => exact heq
  | mismatch => cases hok

/-! ### A changed stored checksum (R181, R223) -/

theorem exec_wrPktCsum (v : Word) (s : State) :
    exec (.wrPktCsum v) s = .next (s.withPkt { s.pkt with csum := v.extractLsb' 0 16 }) := rfl

/-- The checksum domain holds no byte of the stored checksum (R160). -/
@[simp] theorem Packet.checksum_with_csum (p : Packet) (x : Half) : { p with csum := x }.checksum = p.checksum := rfl

/-- Settles O38: the packet FROM left has its own checksum stored, and the write changes only the stored one. -/
theorem changedChecksumIsDetected : Obligations.ChangedChecksumIsDetected := by
  intro c n s t v h hok hne
  obtain ⟨hvalid, -⟩ := constructedPacketValidates c n s t h hok
  have hcsum : t.pkt.checksum = t.pkt.csum := checksum_eq_csum_of_validate_ok hvalid rfl
  refine ⟨_, exec_wrPktCsum v t, exec_cmdValidate_mismatch ?_⟩
  rw [State.pkt_withPkt, Packet.checksum_with_csum, hcsum]
  exact hne.symm

/-! ### The CRC is one-to-one in each byte (R162) -/

/-- The polynomial's top bit records the bit shifted out. -/
theorem getLsbD_crcShift_top (r : Half) : (crcShift r).getLsbD 15 = r.getLsbD 0 := by
  rw [crcShift_eq_xor, BitVec.getLsbD_xor, BitVec.getLsbD_ushiftRight, BitVec.getLsbD_of_ge r _ (by decide)]
  cases r.getLsbD 0 <;> rfl

/-- A shift loses nothing: the bit shifted out is still to be seen at the top, and so the polynomial can be taken
off. -/
theorem crcShift_injective : Function.Injective crcShift := by
  intro r r' h
  have hlow : r.getLsbD 0 = r'.getLsbD 0 := by rw [← getLsbD_crcShift_top, h, getLsbD_crcShift_top]
  have hshift : r >>> 1 = r' >>> 1 := by
    rw [crcShift_eq_xor, crcShift_eq_xor, hlow] at h
    exact (BitVec.xor_left_inj _).mp h
  apply BitVec.eq_of_getLsbD_eq
  intro i _
  cases i with
  | zero => exact hlow
  | succ i => simpa [Nat.add_comm 1 i] using congrArg (·.getLsbD i) hshift

theorem repeat_crcShift_injective (n : Nat) : Function.Injective (Nat.repeat crcShift n) := by
  induction n with
  | zero => exact Function.injective_id
  | succ n ih => exact crcShift_injective.comp ih

theorem crcStep_injective_register (b : Byte) : Function.Injective (crcStep · b) := fun _ _ h =>
  (BitVec.xor_left_inj _).mp (repeat_crcShift_injective 8 h)

theorem crcStep_injective_byte (r : Half) : Function.Injective (crcStep r) := fun b b' h =>
  have hwide : b.setWidth 16 = b'.setWidth 16 := (BitVec.xor_right_inj _).mp (repeat_crcShift_injective 8 h)
  by simpa using congrArg (BitVec.setWidth 8) hwide

theorem foldl_crcStep_injective (bs : List Byte) : Function.Injective (bs.foldl crcStep) := by
  induction bs with
  | nil => exact Function.injective_id
  | cons b bs ih => exact ih.comp (crcStep_injective_register b)

/-- Bytes before and after that stay as they are do not hide a changed byte. -/
theorem crc16_append_cons_inj {pre post : List Byte} {b b' : Byte} :
    crc16 (pre ++ b :: post) = crc16 (pre ++ b' :: post) ↔ b = b' := by
  refine ⟨fun h => ?_, fun h => h ▸ rfl⟩
  rw [crc16_append, crc16_append, List.foldl_cons, List.foldl_cons] at h
  exact crcStep_injective_byte _ (foldl_crcStep_injective post h)

/-- Replacing one byte by another value changes the CRC. -/
theorem crc16_set_ne {bs : List Byte} {j : Nat} {b : Byte} (hj : j < bs.length) (hne : b ≠ bs[j]) :
    crc16 (bs.set j b) ≠ crc16 bs := by
  have hsplit : bs = bs.take j ++ bs[j] :: bs.drop (j + 1) := by simp
  intro h
  rw [List.set_eq_take_append_cons_drop, if_pos hj] at h
  exact hne (crc16_append_cons_inj.mp (h.trans (congrArg crc16 hsplit)))

/-! ### A changed byte of the command or payload (R180) -/

theorem Packet.getElem_domain_payload (p : Packet) {j : Nat} (hj : 4 + j < p.domain.length) :
    p.domain[4 + j] = p.byte j := by
  simp only [Packet.domain_eq_map]
  rw [List.getElem_append_right (by simp)]
  simp

section Corrupted

variable {p q : Packet} (hlen : q.len = p.len)
include hlen

/-- A changed command is byte 2 of the domain. -/
theorem domain_eq_set_of_cmd (hbytes : ∀ i, i < p.len.toNat → q.byte i = p.byte i) :
    q.domain = p.domain.set 2 q.cmd := by
  have hbody : q.body = p.body :=
    SameTransmitted.body (p := { p with cmd := q.cmd, csum := q.csum }) ⟨rfl, hlen, rfl, hbytes⟩
  rw [Packet.domain_eq, Packet.domain_eq, hlen, hbody]
  rfl

/-- A changed payload byte `j` is byte `4 + j` of the domain. -/
theorem domain_eq_set_of_byte {j : Nat} (hcmd : q.cmd = p.cmd)
    (hbytes : ∀ i, i < p.len.toNat → i ≠ j → q.byte i = p.byte i) :
    q.domain = p.domain.set (4 + j) (q.byte j) := by
  have hbody : q.body = p.body.set j (q.byte j) := by
    refine List.ext_getElem (by simp [hlen]) fun i hi _ => ?_
    rw [Packet.length_body, hlen] at hi
    simp only [Packet.body_eq_map, List.getElem_set, List.getElem_map, List.getElem_range]
    split
    · next hij => rw [hij]
    · next hij => exact hbytes i hi (Ne.symm hij)
  rw [Packet.domain_eq, Packet.domain_eq, hlen, hcmd, hbody, List.set_append_right _ _ (by simp)]
  simp

end Corrupted

theorem OneByteCorrupted.checksum_ne {p q : Packet} (h : OneByteCorrupted p q) : q.checksum ≠ p.checksum := by
  obtain ⟨hlen, -, ⟨hne, hbytes⟩ | ⟨hcmd, j, hj, hne, hbytes⟩⟩ := h
  · rw [Packet.checksum, domain_eq_set_of_cmd hlen hbytes]
    exact crc16_set_ne (by simp; omega) hne
  · rw [Packet.checksum, domain_eq_set_of_byte hlen hcmd hbytes]
    exact crc16_set_ne (by simpa using hj) (by rwa [Packet.getElem_domain_payload])

/-- Settles O36: the corrupted packet has another checksum than the valid one, and the same one stored. -/
theorem oneCorruptedByteIsDetected : Obligations.OneCorruptedByteIsDetected := by
  intro s u hvalid hcorrupt
  obtain ⟨t, ht, hok⟩ := hvalid
  have hcsum : u.pkt.csum = s.pkt.checksum := by
    obtain ⟨-, hkept, -⟩ := hcorrupt
    exact hkept.trans (checksum_eq_csum_of_validate_ok ht hok).symm
  refine exec_cmdValidate_mismatch ?_
  rw [hcsum]
  exact hcorrupt.checksum_ne

end Sys2Proof.Machine
end

section
/-! PROOFS, family 44_deserialization.md: the order of PARSE's checks and the packet it loads (R201), and PARSE of what
WRITE wrote (R202). -/

namespace Sys2Proof.Machine

/-! ### What PARSE loads (R201) -/

theorem syncPresent_eq_false_iff (s : State) :
    syncPresent s = false ↔ regionByte s 0 ≠ 0xAA ∨ regionByte s 1 ≠ 0x55 := by
  rw [← Bool.not_eq_true, syncPresent_iff, not_and_or]

theorem getD_regionBytes (s : State) (i n j : Nat) :
    (regionBytes s i n).getD j 0x00 = if j < n then regionByte s (i + j) else 0x00 := by
  rw [regionBytes_eq_map]
  split
  · next h => simp [h, regionByte]
  · next h => simp [h]

/-- The payload is the frame's, and 0x00 beyond the length the frame gives. -/
theorem byte_loaded (s : State) {i : Nat} (h : i < 255) :
    (loaded s).byte i = if i < (regionByte s 3).toNat then regionByte s (4 + i) else 0x00 :=
  (Packet.byte_fillPayload _ _ _ _ h).trans (getD_regionBytes s 4 _ i)

theorem csum_loaded (s : State) :
    (loaded s).csum = regionByte s (5 + (regionByte s 3).toNat) ++ regionByte s (4 + (regionByte s 3).toNat) :=
  joinLe16_eq_append _ _

/-- Settles O28: each clause is one of the outcomes of PARSE, and a complete frame leaves the packet `loaded`. -/
theorem parseLoadsTheFrame : Obligations.ParseLoadsTheFrame := by
  intro m s
  have hsync (h0 : regionByte s 0 = 0xAA) (h1 : regionByte s 1 = 0x55) : syncPresent s = true :=
    (syncPresent_iff s).mpr ⟨h0, h1⟩
  refine ⟨by simp [encode, cwWord], fun h => execCmdParse_short h s,
    fun h ha hbad => execCmdParse_badSync h ha ((syncPresent_eq_false_iff s).mpr hbad),
    fun h h4 ha h0 h1 => execCmdParse_noHeader h h4 ha (hsync h0 h1),
    fun h hl ha h0 h1 => execCmdParse_truncated h ha (hsync h0 h1) hl,
    fun hl ha h0 h1 => ?_, fun j hj hs => execCmdParse_stuck hj hs⟩
  exact ⟨_, execCmdParse_done (hsync h0 h1) hl ha, rfl, rfl, fun i hi => byte_loaded s hi, csum_loaded s,
    Status.word_ok, (loaded s).toNat_frameLen, rfl, fun _ => rfl, rfl, rfl, rfl⟩

/-! ### PARSE after WRITE (R202) -/

/-- VALIDATE gives one status for two packets that are transmitted alike, whatever else the states hold. -/
theorem validate_status_congr {s v : State} (h : SameTransmitted s.pkt v.pkt) :
    ∃ x y, exec .cmdValidate v = .next x ∧ exec .cmdValidate s = .next y ∧ x.status = y.status := by
  by_cases hs : s.pkt.checksum = s.pkt.csum
  · have hv : v.pkt.checksum = v.pkt.csum := by rw [h.checksum, h.csum, hs]
    exact ⟨_, _, exec_cmdValidate_match hv, exec_cmdValidate_match hs, rfl⟩
  · have hv : v.pkt.checksum ≠ v.pkt.csum := by rwa [h.checksum, h.csum]
    exact ⟨_, _, exec_cmdValidate_mismatch hv, exec_cmdValidate_mismatch hs, rfl⟩

/-- Settles O41: the region holds the frame written, so what PARSE loads from it is read off the frame's layout. -/
theorem parseInvertsWrite : Obligations.ParseInvertsWrite := by
  intro cap m s t u hwrite hok hptr hkept hadmitted hm
  have hframe {k : Nat} {b : Byte} (hb : s.pkt.frame[k]? = some b) : regionByte u k = b := by
    obtain ⟨hk, -⟩ := List.getElem?_eq_some_iff.mp hb
    rw [regionByte, hptr, hkept k (s.pkt.length_frame ▸ hk)]
    exact hostByte_of_exec_cmdWrite_ok hwrite hok hb
  have hlen : regionByte u 3 = s.pkt.len := hframe (s.pkt.frame_header (by decide))
  obtain ⟨-, -, -, -, -, hloads, -⟩ := parseLoadsTheFrame m u
  rw [hlen] at hloads
  obtain ⟨v, hv, hvcmd, hvlen, hvbyte, hvcsum, hkeeps⟩ := hloads hm hadmitted
    (hframe (s.pkt.frame_header (by decide))) (hframe (s.pkt.frame_header (by decide)))
  obtain ⟨hstatus, hresult, hvptr, hmem, hside⟩ := hkeeps
  have hcmd : v.pkt.cmd = s.pkt.cmd := hvcmd.trans (hframe (s.pkt.frame_header (by decide)))
  have hcsum : v.pkt.csum = s.pkt.csum := by
    rw [hvcsum, hframe s.pkt.frame_csum_hi, hframe s.pkt.frame_csum_lo, ← joinLe16_eq_append, joinLe16_lo8_hi8]
  have hbyte (i : Nat) (hi : i < 255) : v.pkt.byte i = if i < s.pkt.len.toNat then s.pkt.byte i else 0x00 := by
    rw [hvbyte i hi]
    exact ite_congr rfl (fun hlt => hframe (s.pkt.frame_payload hlt)) fun _ => rfl
  have hsame : SameTransmitted s.pkt v.pkt := by
    refine ⟨hcmd, hvlen, hcsum, fun i hi => ?_⟩
    have := s.pkt.len.isLt
    rw [hbyte i (by omega), if_pos hi]
  exact ⟨v, hv, hcmd, hvlen, hcsum, hbyte, hstatus, hresult, hvptr, hmem, hside, validate_status_congr hsame⟩

end Sys2Proof.Machine
end

section
/-! PROOFS, family 45_register_access.md: what a read of each register returns (R220, R228), and what a write of each
register other than CTRL sets (R222 to R224, R227) or leaves as it is (R225, R226). -/

namespace Sys2Proof.Machine

/-! ### What a read returns (R220) -/

/-- A read answers its register's value in whichever form the word is written. -/
theorem answerHost_of_eq {x v : Word} (h : x = v) (s : State) : answerHost x s = .next (s.withHostData v) := by
  rw [answerHost, h]

/-- STATUS is ERR, FDET above it, and 26 bits that read 0 (R30). -/
theorem Status.word_eq_append (st : Status) : st.word = 0#26 ++ st.fdet ++ st.err := by
  apply BitVec.eq_of_getLsbD_eq
  intro i hi
  simp only [Status.word, BitVec.getLsbD_or, BitVec.getLsbD_shiftLeft, BitVec.getLsbD_setWidth,
    BitVec.getLsbD_append]
  rcases Nat.lt_or_ge i 4 with h | h
  · simp [h, hi]
  · have hfdet (hb : st.fdet.getLsbD (i - 4) = true) : i ≤ 5 := by
      have := BitVec.lt_of_getLsbD hb
      omega
    simpa [Nat.not_lt.mpr h, hi, BitVec.getLsbD_of_ge st.err i h, show i - 4 < 32 by omega] using hfdet

/-- Settles O44: a read answers its register's value, zero-extended to a word, and sets nothing but `hostData`. -/
theorem registerReadsReturn : Obligations.RegisterReadsReturn := fun s =>
  ⟨rfl, rfl,
    answerHost_of_eq s.status.word_eq_append s,
    answerHost_of_eq (BitVec.setWidth_eq_append (by decide)) s,
    rfl,
    answerHost_of_eq (BitVec.setWidth_eq_append (by decide)) s,
    answerHost_of_eq (BitVec.setWidth_eq_append (by decide)) s,
    answerHost_of_eq (BitVec.setWidth_eq_append (by decide)) s,
    fun _ => rfl,
    fun k => answerHost_of_eq (s.pkt.window_eq_append k) s,
    s.pkt.byte_of_ge (Nat.le_refl 255)⟩

/-! ### What a write sets (R221) -/

theorem exec_wrPktCmd (v : Word) (s : State) :
    exec (.wrPktCmd v) s = .next (s.withPkt { s.pkt with cmd := v.extractLsb' 0 8 }) := rfl

theorem exec_wrPayload (k : BitVec 6) (v : Word) (s : State) :
    exec (.wrPayload k v) s = .next (s.withPkt (s.pkt.setWindow k v)) := rfl

/-- A new packet register changes nothing of host memory or of the host's side. -/
theorem kept_withPkt (s : State) (p : Packet) : HostMemKept s (s.withPkt p) ∧ HostSideKept s (s.withPkt p) :=
  ⟨fun _ => rfl, rfl, rfl, rfl⟩

/-- Settles O47: the next state's packet is `setWindow`'s, whose bytes `Packet.byte_setWindow` gives. -/
theorem payloadWriteSetsFourBytes : Obligations.PayloadWriteSetsFourBytes := fun k v s =>
  ⟨_, exec_wrPayload k v s, fun _ hi => s.pkt.byte_setWindow k v hi, s.pkt.cmd_setWindow k v,
    s.pkt.len_setWindow k v, s.pkt.csum_setWindow k v, rfl, rfl, rfl, kept_withPkt s _⟩

/-- Settles O46: each write replaces one field of the packet. -/
theorem commandAndChecksumWrites : Obligations.CommandAndChecksumWrites := fun v s =>
  ⟨⟨_, exec_wrPktCmd v s, BitVec.extractLsb'_toNat 0 8 v, rfl, rfl, rfl, rfl, rfl, rfl, kept_withPkt s _⟩,
    ⟨_, exec_wrPktCsum v s, BitVec.extractLsb'_toNat 0 16 v, rfl, rfl, rfl, rfl, rfl, rfl, kept_withPkt s _⟩⟩

/-- Settles O45: the write is `withPtr`, whatever the value. -/
theorem ptrWriteSetsPtr : Obligations.PtrWriteSetsPtr := fun _ _ => rfl

/-- Settles O48: each of these writes is `ignoreWrite`, and a reserved offset answers 0. -/
theorem readOnlyWritesAreIgnored : Obligations.ReadOnlyWritesAreIgnored := fun _ _ _ =>
  ⟨rfl, rfl, rfl, rfl, rfl, rfl⟩

end Sys2Proof.Machine
end

section
/-! PROOFS, family 60_exceptions.md: the STATUS and RESULT every command leaves (R241), and that a command that ends
with an error changes nothing else (R243). -/

namespace Sys2Proof.Machine

/-! ### What stands in STATUS and RESULT (R241) -/

/-- An operation that performs no command leaves STATUS and RESULT as they are. -/
theorem exec_keeps_outcome {i : Instr} {s t : State} (hi : (performed i).isCommand = false)
    (h : exec i s = .next t) : t.status = s.status ∧ t.result = s.result := by
  rcases exec_next_cases h with ⟨hp, -⟩ | ⟨-, -, rfl | ⟨-, v, rfl⟩ | ⟨v, -, rfl⟩ | ⟨p, rfl, -⟩⟩
  · exact absurd hp (by simp [hi])
  all_goals exact ⟨rfl, rfl⟩

/-- Settles O30: a command's rows are the cases of `CommandDone`, and no register access records an outcome. -/
theorem outcomesOfEveryCommand : Obligations.OutcomesOfEveryCommand := by
  intro i s t h
  rcases exec_next_cases h with ⟨-, hd⟩ | ⟨hi, -⟩
  · generalize performed i = c at hd ⊢
    cases hd with
    | new | calculated | illegal => exact ⟨rfl, rfl⟩
    | fromTooLarge => exact ⟨rfl, .inr rfl⟩
    | fromDone => exact ⟨rfl, .inl rfl⟩
    | writeTooSmall => exact .inr ⟨rfl, rfl⟩
    | writeDone => exact .inl ⟨rfl, s.pkt.toNat_frameLen⟩
    | valid => exact ⟨rfl, .inl rfl⟩
    | mismatch => exact ⟨rfl, .inr rfl⟩
    | parseTruncated => exact .inr ⟨rfl, .inl rfl⟩
    | parseBadSync => exact .inr ⟨rfl, .inr rfl⟩
    | parseDone => exact .inl ⟨rfl, (loaded s).toNat_frameLen⟩
  · have hkept := exec_keeps_outcome hi h
    generalize performed i = c at hi ⊢
    cases c with
    | cmdNew | cmdFrom | cmdWrite | cmdValidate | cmdParse | cmdCalc | cmdIllegal => cases hi
    | _ => exact hkept

/-! ### What an error leaves unchanged (R243) -/

/-- A command that ends with an error only records it, beside a RESULT of 0. -/
theorem CommandDone.eq_withOutcome_of_err {s t : State} {i : Instr} (h : CommandDone s i t)
    (herr : t.status.err ≠ 0) : ∃ st, t = s.withOutcome st 0 := by
  cases h with
  | fromTooLarge | writeTooSmall | mismatch | parseTruncated | parseBadSync | illegal => exact ⟨_, rfl⟩
  | new | fromDone | writeDone | valid | parseDone | calculated => exact absurd rfl herr

/-- Settles O31: the state left is the one before with an outcome recorded, and FROM and WRITE check their operand
before they access a byte. -/
theorem errorChangesOnlyStatusAndResult : Obligations.ErrorChangesOnlyStatusAndResult := by
  refine ⟨fun i s t hi h herr => ?_, fun c n s hn => ⟨_, execCmdFrom_tooLarge c hn s, rfl⟩,
    fun cap s hcap => ⟨_, execCmdWrite_tooSmall hcap, rfl⟩⟩
  have hd : CommandDone s (performed i) t := commandDone_of_next hi ((exec_performed i s).trans h)
  obtain ⟨st, rfl⟩ := hd.eq_withOutcome_of_err herr
  exact ⟨rfl, rfl, fun _ => rfl, rfl, rfl, rfl⟩

end Sys2Proof.Machine
end

section
/-! PROOFS, family 70_reset_and_hazards.md: what reset leaves (R270, R271), the packet after a failed command (R274),
the host's view of a written frame (R279), and which operations complete (R281). -/

namespace Sys2Proof.Machine

/-! ### Reset (R270, R271) -/

/-- Settles O1: the packet of reset is the one NEW leaves, and its other registers are listed. -/
theorem resetStateIsAsListed : Obligations.ResetStateIsAsListed :=
  ⟨rfl, rfl, fun i _ => Packet.byte_reset i, rfl, rfl, rfl, rfl, rfl, rfl, rfl, exec_cmdNew State.reset⟩

theorem stepEvent_reset (s : State) : stepEvent .reset s = .next (blockReset s) := rfl

theorem hostMemKept_blockReset (s : State) : HostMemKept s (blockReset s) := fun _ => rfl

theorem hostSideKept_blockReset (s : State) : HostSideKept s (blockReset s) := ⟨rfl, rfl, rfl⟩

/-- Settles O2: the event's next state is `blockReset`'s, in which the rest of the events is what the host does next. -/
theorem blockResetKeepsHostMemory : Obligations.BlockResetKeepsHostMemory := fun s rest he =>
  ⟨_, (step_of_inputs_cons he).trans (stepEvent_reset _), rfl, rfl, rfl, rfl,
    hostMemKept_blockReset (s.withInputs rest), hostSideKept_blockReset (s.withInputs rest)⟩

/-- Settles O52: host memory lists nothing at reset, and the outcome there is that of a successful command. -/
theorem resetIsAGoodState : Obligations.ResetIsAGoodState :=
  inv_withOutcome_ok (s := State.reset) rfl 0

/-! ### Which operations complete (R281) -/

theorem regionUse_cmdWrite {cap : Half} {s : State} (h : s.pkt.len.toNat + 6 ≤ cap.toNat) :
    regionUse (.cmdWrite cap) s = (.write, s.pkt.len.toNat + 6) := by
  simp [regionUse, performed, h]

/-- A stuck command accesses a byte that is not admitted. -/
theorem CommandStuck.not_regionAdmitted {s : State} {j : Nat} {i : Instr} {f : Fault} (h : CommandStuck s j i f) :
    ¬ RegionAdmitted s (regionUse i s).1 (regionUse i s).2 := by
  intro ha
  cases h with
  | read _ hd hj hn =>
    rw [hd] at ha
    exact absurd (ha.le_of_firstNotAdmitted hn) (Nat.not_le.mpr hj)
  | write cap hcap hj hn =>
    rw [regionUse_cmdWrite hcap] at ha
    exact absurd (ha.le_of_firstNotAdmitted hn) (Nat.not_le.mpr hj)

/-- An operation whose bytes are all admitted completes: a command would be stuck at one that is not, and a register
access accesses none. -/
theorem exec_completes_of_regionAdmitted {i : Instr} {s : State}
    (ha : RegionAdmitted s (regionUse i s).1 (regionUse i s).2) : ∃ t, exec i s = .next t := by
  rw [← exec_performed]
  rw [← regionUse_performed] at ha
  cases hi : (performed i).isCommand with
  | true =>
    rcases command_cases hi s with ⟨t, ht, -⟩ | ⟨j, f, -, hs⟩
    · exact ⟨t, ht⟩
    · exact absurd ha hs.not_regionAdmitted
  | false =>
    obtain ⟨t, ht, -⟩ := access_cases hi (performed_ne_wrCtrl i) s
    exact ⟨t, ht⟩

theorem regionAdmitted_of_exec_next {i : Instr} {s t : State} (h : exec i s = .next t) :
    RegionAdmitted s (regionUse i s).1 (regionUse i s).2 := by
  rcases regionAdmitted_or s (regionUse i s).1 (regionUse i s).2 with ha | ⟨j, hj, hn⟩
  · exact ha
  · obtain ⟨f, hf, -⟩ := commandStuck_of_firstNotAdmitted hj hn
    rw [h] at hf
    cases hf

/-- Settles O19: a write to CTRL is the command its word decodes to, so it completes in the same state. -/
theorem admittedOperationsComplete : Obligations.AdmittedOperationsComplete := by
  refine ⟨fun i s => ⟨fun ⟨t, ht⟩ => regionAdmitted_of_exec_next ht, exec_completes_of_regionAdmitted⟩,
    fun w s ha => ?_⟩
  obtain ⟨t, ht⟩ := exec_completes_of_regionAdmitted ha
  exact ⟨t, ht, (exec_wrCtrl w s).trans ht⟩

/-! ### The host's view of a written frame (R279) -/

@[simp] theorem State.withInputs_withInputs (s : State) (es es' : List HostEvent) :
    (s.withInputs es).withInputs es' = s.withInputs es' := rfl

/-- Settles O18: a load answers the byte at its address, where the frame's byte stands. -/
theorem hostSeesTheWrittenFrame : Obligations.HostSeesTheWrittenFrame := by
  intro s t cap h hok i b rest hb
  have hbyte : hostByte t (ea s.ptr i) = b := hostByte_of_exec_cmdWrite_ok h hok hb
  rw [step_of_inputs_cons (e := .load (ea s.ptr i)) (rest := rest) rfl, stepEvent_load, hostByte_withInputs,
    hostByte_withInputs, hbyte, State.withInputs_withInputs]

/-! ### The packet after a failed FROM or PARSE (R274)

A failed command leaves the state before it with another outcome recorded, and no command looks at the outcome it
finds. -/

@[simp] theorem State.withOutcome_withOutcome (s : State) (st st' : Status) (r r' : Half) :
    (s.withOutcome st r).withOutcome st' r' = s.withOutcome st' r' := rfl

theorem exec_cmdValidate_withOutcome (s : State) (st : Status) (r : Half) :
    exec .cmdValidate (s.withOutcome st r) = exec .cmdValidate s := rfl

theorem written_withOutcome (s : State) (st : Status) (r : Half) (i : Nat) (bs : List Byte) :
    written (s.withOutcome st r) i bs = (written s i bs).withOutcome st r := by
  induction bs generalizing s i with
  | nil => rfl
  | cons b bs ih => exact ih (storeByte s (ea s.ptr i) b) (i + 1)

/-- A stuck WRITE is set apart: the state it is stuck in holds the outcome it found. -/
theorem exec_cmdWrite_withOutcome {cap : Half} {s u : State} (h : exec (.cmdWrite cap) s = .next u) (st : Status)
    (r : Half) : exec (.cmdWrite cap) (s.withOutcome st r) = .next u := by
  have ha := regionAdmitted_of_exec_next h
  cases commandDone_of_next rfl h with
  | writeTooSmall _ hcap => exact execCmdWrite_tooSmall (s := s.withOutcome st r) hcap
  | writeDone _ hcap =>
    rw [regionUse_cmdWrite hcap] at ha
    have hdone := execCmdWrite_done (s := s.withOutcome st r) hcap ha
    rwa [written_withOutcome, State.withOutcome_withOutcome] at hdone

/-- Settles O42: the error only records its outcome, which VALIDATE and WRITE do not look at. -/
theorem stalePacketAfterAnError : Obligations.StalePacketAfterAnError := by
  intro i s t hi h herr
  have hcommand : i.isCommand = true := by rcases hi with ⟨c, n, rfl⟩ | ⟨m, rfl⟩ <;> rfl
  obtain ⟨st, rfl⟩ := (commandDone_of_next hcommand h).eq_withOutcome_of_err herr
  exact ⟨exec_cmdValidate_withOutcome s st 0, fun cap u hu => exec_cmdWrite_withOutcome hu st 0⟩

end Sys2Proof.Machine
end
